-- ==== Sys2Proof/Word.lean ====
section
/-! DEFINITION. The bit-vector types of the spec's notation (R13, R14 of `00_scope.md`): every value is
unsigned, bit 0 is the least significant. -/

namespace Sys2Proof

/-- A byte, 8 bits (R13; general knowledge G3, log entry 9). -/
abbrev Byte := BitVec 8

/-- A 16-bit value: the `CRC`, `STATUS` and `TAG` registers and the `data` field of a response. -/
abbrev Half := BitVec 16

/-- A command word `cmd` (R69): `op = cmd[15:8]`, `arg = cmd[7:0]`. -/
abbrev CmdWord := BitVec 16

/-- A response word `rsp` (R73): `code = rsp[19:16]`, `data = rsp[15:0]`. -/
abbrev RspWord := BitVec 20

end Sys2Proof
end

