-- ==== Sys2Proof/Syntax.lean ====
section
/-! DEFINITION. The twelve commands (R70 of `30_encoding.md`), one constructor per row of
`spec/opcode_table.json`. -/

namespace Sys2Proof

/-- A command. An operand is the 8 bits `cmd[7:0]` (R72), so every term is the reading of one command word;
the commands of format N have no operand. -/
inductive Instr where
  /-- `RD r` (R111): read register number `r`. -/
  | rd (r : Byte)
  /-- `BUF.CLR` (R112). -/
  | bufClr
  /-- `BUF.PUSH b` (R113): append the byte `b`. -/
  | bufPush (b : Byte)
  /-- `BUF.RD i` (R114): read the byte at index `i`. -/
  | bufRd (i : Byte)
  /-- `CRC.CLR` (R95). -/
  | crcClr
  /-- `CRC.UPD b` (R96): feed the byte `b` to the accumulator. -/
  | crcUpd (b : Byte)
  /-- `CRC.BUF` (R97). -/
  | crcBuf
  /-- `CRC.DIG i` (R98): the checksum digit of index `i`. -/
  | crcDig (i : Byte)
  /-- `SEQ.SET n` (R121). -/
  | seqSet (n : Byte)
  /-- `SEQ.INC` (R122). -/
  | seqInc
  /-- `ENC.RUN` (R123). -/
  | encRun
  /-- `DEC.RUN` (R131). -/
  | decRun
  deriving DecidableEq, Repr

end Sys2Proof
end

