-- ==== Sys2Proof/Decode.lean ====
section
/-! DEFINITION. The command word: decoding (R69, R71), the mask and match table (R70), encoding, and the
host's reading of an opcode-table row. -/

namespace Sys2Proof

/-- The four formats of R69. -/
inductive Format where
  /-- no operand: `cmd[7:0]` must be 0x00 -/
  | N
  /-- a data byte -/
  | B
  /-- an index or number -/
  | I
  /-- a register number -/
  | R
  deriving DecidableEq, Repr

/-- Why a word is no command; both are refused `ILLEGAL_OP` (R71 steps 2 and 3, R75). -/
inductive IllegalWord where
  /-- `op` is none of the twelve values of R70. -/
  | undefinedOpcode
  /-- the format is N and `arg ≠ 0x00`. -/
  | operandNotZero
  deriving DecidableEq, Repr

/-- What the decoder makes of a word: exactly one command, or an illegal word (R71). -/
inductive Decoded where
  | command (i : Instr)
  | illegal (why : IllegalWord)
  deriving DecidableEq, Repr

/-- `op = cmd[15:8]` (R69). -/
def opField (w : CmdWord) : Byte := w.extractLsb' 8 8

/-- `arg = cmd[7:0]` (R69), used as it stands (R72). -/
def argField (w : CmdWord) : Byte := w.extractLsb' 0 8

/-- Step 3 of R71: a format N command with a non-zero operand is illegal. -/
def noOperand (arg : Byte) (i : Instr) : Decoded :=
  if arg = 0x00 then .command i else .illegal .operandNotZero

/-- Decoding a command word in the order of R71, total on all 65536 words. The opcode numbers are R70's. -/
def decode (w : CmdWord) : Decoded :=
  match (opField w).toNat with
  | 0x01 => .command (.rd (argField w))
  | 0x10 => noOperand (argField w) .bufClr
  | 0x11 => .command (.bufPush (argField w))
  | 0x12 => .command (.bufRd (argField w))
  | 0x20 => noOperand (argField w) .crcClr
  | 0x21 => .command (.crcUpd (argField w))
  | 0x22 => noOperand (argField w) .crcBuf
  | 0x23 => .command (.crcDig (argField w))
  | 0x30 => .command (.seqSet (argField w))
  | 0x31 => noOperand (argField w) .seqInc
  | 0x32 => noOperand (argField w) .encRun
  | 0x40 => noOperand (argField w) .decRun
  | _ => .illegal .undefinedOpcode

/-! ### Encoding -/

/-- The opcode of a command (R70). -/
def opcodeOf : Instr → Byte
  | .rd _ => 0x01
  | .bufClr => 0x10
  | .bufPush _ => 0x11
  | .bufRd _ => 0x12
  | .crcClr => 0x20
  | .crcUpd _ => 0x21
  | .crcBuf => 0x22
  | .crcDig _ => 0x23
  | .seqSet _ => 0x30
  | .seqInc => 0x31
  | .encRun => 0x32
  | .decRun => 0x40

/-- The format of a command (R70). -/
def formatOf : Instr → Format
  | .rd _ => .R
  | .bufClr => .N
  | .bufPush _ => .B
  | .bufRd _ => .I
  | .crcClr => .N
  | .crcUpd _ => .B
  | .crcBuf => .N
  | .crcDig _ => .I
  | .seqSet _ => .I
  | .seqInc => .N
  | .encRun => .N
  | .decRun => .N

/-- The operand bits of a command: 0x00 for format N (R69). -/
def operandOf : Instr → Byte
  | .rd r => r
  | .bufPush b => b
  | .bufRd i => i
  | .crcUpd b => b
  | .crcDig i => i
  | .seqSet n => n
  | .bufClr | .crcClr | .crcBuf | .seqInc | .encRun | .decRun => 0x00

/-- The word of a command: `op << 8 or operand` (R69, R76). -/
def encode (i : Instr) : CmdWord := opcodeOf i ++ operandOf i

/-! ### The mask and match table -/

/-- A row of R70's table: `w` is the command of the row when `w and mask = match`. -/
structure OpcodeRow where
  op : Byte
  format : Format
  matchBits : CmdWord
  mask : CmdWord
  deriving DecidableEq, Repr

/-- The table of R70, row by row. -/
def opcodeTable : List OpcodeRow :=
  [⟨0x01, .R, 0x0100, 0xFF00⟩, ⟨0x10, .N, 0x1000, 0xFFFF⟩, ⟨0x11, .B, 0x1100, 0xFF00⟩,
   ⟨0x12, .I, 0x1200, 0xFF00⟩, ⟨0x20, .N, 0x2000, 0xFFFF⟩, ⟨0x21, .B, 0x2100, 0xFF00⟩,
   ⟨0x22, .N, 0x2200, 0xFFFF⟩, ⟨0x23, .I, 0x2300, 0xFF00⟩, ⟨0x30, .I, 0x3000, 0xFF00⟩,
   ⟨0x31, .N, 0x3100, 0xFFFF⟩, ⟨0x32, .N, 0x3200, 0xFFFF⟩, ⟨0x40, .N, 0x4000, 0xFFFF⟩]

/-- The rows a word matches. -/
def matchingRows (w : CmdWord) : List OpcodeRow :=
  opcodeTable.filter fun row => w &&& row.mask == row.matchBits

/-! ### The host's reading of a table row -/

/-- The command word made of the low `nbits` bits of `w`; `none` where a bit above bit 15 is set, since no
command is longer than 16 bits (R69, log entry 14). -/
def tableCmdWord (nbits w : Nat) : Option CmdWord :=
  if w % 2 ^ nbits < 2 ^ 16 then some (BitVec.ofNat 16 (w % 2 ^ nbits)) else none

/-- The command this decoder reads from a table row's bits. -/
def decodeTableWord (nbits w : Nat) : Option Instr :=
  match tableCmdWord nbits w with
  | none => none
  | some cmd =>
    match decode cmd with
    | .command i => some i
    | .illegal _ => none

end Sys2Proof
end

