-- ==== Sys2Proof/Config.lean ====
section
/-! DEFINITION. What is fixed for the machine (R8 to R12 of `00_scope.md`) as a record type, and the
parameters the spec leaves open (R11, R191). The record's values are
`Sys2Proof.Machine.params` in `Machine/Params.lean`, where a repair may mend them. -/

namespace Sys2Proof

/-- The named constants of R8 and R10, and `DSEQ_NONE` (D10). A claim may quantify over a `Config`:
the pure functions of `Machine/Crc.lean` and `Machine/Decimal.lean` take what they read of it as an argument. -/
structure Config where
  /-- `CHUNK_MAX` (R8): most bytes in one chunk. -/
  chunkMax : Nat
  /-- `TAG_DIGITS` (R8): ASCII digits in the sequence tag. -/
  tagDigits : Nat
  /-- `TAG_MOD` (R8): tags are `0 .. TAG_MOD - 1`. -/
  tagMod : Nat
  /-- `CK_DIGITS` (R8): ASCII digits in the checksum. -/
  ckDigits : Nat
  /-- `FRAME_MAX` (R8): most bytes in one frame, and the capacity of `BUF` (R12). -/
  frameMax : Nat
  /-- `CRC_WIDTH` (R8): bits of the CRC. -/
  crcWidth : Nat
  /-- `CRC_POLY` (R10): the generator without its `x^16` term. -/
  crcPoly : Half
  /-- `CRC_INIT` (R10). -/
  crcInit : Half
  /-- `CRC_XOROUT` (R10): the final XOR, zero in the set the spec takes (log entry 12). -/
  crcXorOut : Half
  /-- `DSEQ_NONE` (D10): the `DSEQ` value that means "no numeric tag". -/
  dseqNone : BitVec 7
  deriving DecidableEq, Repr

/-- `FRAME_MIN` (R9): the shortest Data Frame, carrying an empty chunk. -/
def Config.frameMin (p : Config) : Nat := p.tagDigits + p.ckDigits

/-- How `END_MARKER` travels (the open parameter `END_MARKER_PAYLOAD`, C1): as it is, or as the chunk of a Data Frame. -/
inductive MarkerForm where
  | raw
  | framed
  deriving DecidableEq, Repr

/-- What the receiver software decides about a decoded frame (R188). -/
inductive Verdict where
  | terminate
  | duplicate
  | accept
  | reject
  deriving DecidableEq, Repr

/-! ### Open parameters: no value is chosen for any of them -/

/-- `CMD_CYCLES(op)` (R11, R170): the time of a command, by opcode. It has no body, the model has no time, and
nothing reads it (log entry 10). -/
opaque Config.cmdCycles : Byte → Nat

/-- The host's open parameters (R11, R184, R191, U10): an argument of the functions of `Machine/Protocol.lean`,
read by no command and no step. -/
structure HostParams where
  /-- `END_MARKER` (R184): value not given. -/
  endMarker : List Byte
  /-- `FINAL_ACK` (R184): value not given. -/
  finalAck : List Byte
  /-- `END_MARKER_PAYLOAD` (C1, U5). -/
  endMarkerPayload : MarkerForm
  /-- The receiver's reaction to a repeated `END_MARKER` with the last accepted tag: `any value` (U10). -/
  repeatedMarkerVerdict : Verdict
  /-- The receiver's reaction to a new tag that is no number under a matching checksum, `VALID = 1` and `TAGNUM = 0`:
  `any value` (U2, N8; R135 advises against accepting it). -/
  nonNumericTagVerdict : Verdict
  /-- `ACK_TIMEOUT` (R191), nominally about 10 ms; no function reads it. -/
  ackTimeout : Nat
  /-- `END_CADENCE` (R191), nominally about 1 s; no function reads it. -/
  endCadence : Nat
  /-- `GRACE_DELAY` (R191), no value given; no function reads it. -/
  graceDelay : Nat
  /-- `POLL_SLEEP` (R191), no value given; no function reads it. -/
  pollSleep : Nat
  deriving DecidableEq, Repr

end Sys2Proof
end

