-- ==== Sys2Proof/Machine/Params.lean ====
section
/-! DEFINITION. The values of the configuration record: the source's literals (R8), the CRC parameter
set of R10 and the decided constants of `92_eei_decisions.md`. -/

namespace Sys2Proof.Machine

/-- The constants of this FCU. `crcPoly`, `crcInit` and `crcXorOut` are the set catalogued as
CRC-16/XMODEM, as R10 states it; the spec has it from general knowledge, so it is UNVERIFIED (G1, log entry 6). -/
def params : Config where
  chunkMax := 25
  tagDigits := 2
  tagMod := 100
  ckDigits := 5
  frameMax := 32
  crcWidth := 16
  crcPoly := 0x1021
  crcInit := 0x0000
  crcXorOut := 0x0000
  dseqNone := 127

end Sys2Proof.Machine
end

