-- ==== Sys2Proof/Machine/State.lean ====
section
/-! DEFINITION. The machine's state as plain data (R20 of `10_state.md`), the host's side of the command
and response port, the reasons a step can stop (none is used), and the reset state (R34). -/

namespace Sys2Proof.Machine

/-- The buffer `BUF`: the bytes at indices `0 .. LEN - 1` in order (R23: "a list ... of bytes, not ... a
32-byte array with a separate counter"). The position in the list is the address, and an index at or above the
length reads as no value (log entry 4). -/
abbrev Memory := List Byte

/-- What the host can do to the unit between two commands (R194): issue any command word, or reset it (R160). -/
inductive HostEvent where
  | command (w : CmdWord)
  | reset
  deriving DecidableEq, Repr

/-- Why a command is refused (R142). A refusal of this kind is a NEXT state with a response (R141, log entry 3). -/
inductive RefusalCause where
  /-- `op` undefined, or format N with a non-zero operand. -/
  | illegalOp
  /-- `RD r` with `r ≥ 7`. -/
  | illegalReg
  /-- `BUF.PUSH` with `LEN = 32`. -/
  | overflow
  /-- `BUF.RD i` with `i ≥ LEN`, `CRC.DIG i` with `i ≥ 5`. -/
  | index
  /-- `SEQ.SET n` with `n ≥ 100`. -/
  | range
  /-- `ENC.RUN` with `LEN ≥ 26`. -/
  | length
  deriving DecidableEq, Repr

/-- The state. The first seven fields are the eight items of R20 (`LEN` is the length of `buf`); the last
two are the model's own, the host's side of the port (log entry 1), and are not state of the unit (R32 (b)). -/
structure State where
  /-- `BUF`, and with its length `LEN` (R23, R27). -/
  buf : Memory
  /-- `SEQ`, the tag the encoder will use (R24). -/
  seq : BitVec 7
  /-- `CRC`, the accumulator (R25). -/
  crc : Half
  /-- `STATUS`, the decoder's flags in bits 2:0, bits 15:3 zero (R26). -/
  status : Half
  /-- `CLEN`, the length of the chunk the decoder found (R28). -/
  clen : BitVec 5
  /-- `TAG`, the two tag bytes the decoder found (R29). -/
  tag : Half
  /-- `DSEQ`, the tag the decoder found as a number, 127 for none (R30). -/
  dseq : BitVec 7
  /-- MODEL'S OWN: what the host will do next, the first event first. -/
  hostq : List HostEvent
  /-- MODEL'S OWN: the responses produced so far, oldest first (R48: "responses come back in command order"). -/
  rsps : List RspWord
  deriving DecidableEq, Repr

/-- Why the machine would stop with a fault. It has no constructor, since "The FCU has no fault state, no
stuck state and no hang" (R140): nothing raises a fault. Safe: a step is never cut short. -/
inductive Fault where
  deriving DecidableEq, Repr

/-- Why a step would have no meaning. -/
inductive Refusal where
  /-- An instruction whose meaning is not written yet, by its mnemonic. No arm of `exec` raises it in this
  model. Safe: the step stops where the hardware goes on. -/
  | notModelled (mnemonic : String)
  deriving DecidableEq, Repr

/-- The state right after reset (R34). The model's own two fields are empty: the host has done nothing yet
(DESIGN CHOICE, log entry 1). -/
def State.reset : State where
  buf := []
  seq := 0
  crc := 0x0000
  status := 0x0000
  clen := 0
  tag := 0x0000
  dseq := 127
  hostq := []
  rsps := []

end Sys2Proof.Machine
end

