-- ==== Sys2Proof/Machine/Ops.lean ====
section
/-! DEFINITION. The named operations every meaning is written over: the buffer, the register writes, the
response port, the refusal (the unit's one exception), reset, and the host's event queue. -/

namespace Sys2Proof.Machine

/-- What a meaning answers. -/
abbrev Outcome := Host.Outcome State Fault Refusal

/-! ### The buffer (R23, R40, R44, R110) -/

/-- `MemRead(i, 1)` (R16): the byte at index `i`, no value at or above the length (R114). -/
def Memory.read (m : Memory) (i : Nat) : Option Byte := m[i]?

/-- The one way to write (R110 (a)): the bytes `bs` at the implicit index `LEN` and up. -/
def Memory.append (m : Memory) (bs : List Byte) : Memory := m ++ bs

/-- The buffer made empty (R112). -/
def Memory.clear : Memory := []

/-- The canonical form of the buffer: at most `FRAME_MAX` bytes (R31 (a)). The list has no entry at or above
its length, so equal buffers are equal data. -/
def Memory.wf (m : Memory) : Bool := decide (m.length ≤ params.frameMax)

/-- The buffer as (address, byte) pairs, addresses rising from 0. -/
def Memory.cells (m : Memory) : List Host.Cell := m.zipIdx.map fun c => (c.2, c.1)

/-- The byte of the buffer at index `a` (R40 (a)), the model's read of one byte. -/
def readByte (s : State) (a : Nat) : Option Byte := s.buf.read a

/-- The index `BUF.PUSH` and `ENC.RUN` append at: `LEN` before the command (R110 (a)). -/
def appendIndex (s : State) : Nat := s.buf.length

/-- `LEN` as the 6-bit register (R27). -/
def lenReg (s : State) : BitVec 6 := BitVec.ofNat 6 s.buf.length

/-! ### Register writes -/

/-- `BUF <- m` and with it `LEN`. -/
def State.withBuf (s : State) (m : Memory) : State := { s with buf := m }

/-- `SEQ <- n`. -/
def State.withSeq (s : State) (n : BitVec 7) : State := { s with seq := n }

/-- `CRC <- v`. -/
def State.withCrc (s : State) (v : Half) : State := { s with crc := v }

/-- The four registers the decoder reports in, written together (R131). -/
def State.withDecode (s : State) (status : Half) (clen : BitVec 5) (tag : Half) (dseq : BitVec 7) : State :=
  { s with status := status, clen := clen, tag := tag, dseq := dseq }

/-! ### The response port (R73) -/

/-- A response word: `code` in bits 19:16, `data` in bits 15:0. -/
def rspWord (code : BitVec 4) (data : Half) : RspWord := code ++ data

/-- `rsp[19:16]`. -/
def rspCode (r : RspWord) : BitVec 4 := r.extractLsb' 16 4

/-- `rsp[15:0]`. -/
def rspData (r : RspWord) : Half := r.extractLsb' 0 16

/-- The response `r` is produced, after all responses before it (R48). -/
def State.emit (s : State) (r : RspWord) : State := { s with rsps := s.rsps ++ [r] }

/-- `respond v` (R16, R73): the command ends with response `(0, v)`. -/
def respond (v : Half) (s : State) : Outcome := .next (s.emit (rspWord 0 v))

/-! ### The refusal: the unit's one exception (R140 (b), R141, R145) -/

/-- The 4-bit codes of R142. -/
def refusalCode : RefusalCause → BitVec 4
  | .illegalOp => 1
  | .illegalReg => 2
  | .overflow => 3
  | .index => 4
  | .range => 5
  | .length => 6

/-- Taking the exception (R141): no architectural state changes, the response is `(code, cmd)`, and the unit
is ready for the next command. Nothing is saved and control goes nowhere (R145), so there is no return from it
either (R146). -/
def refuseWord (cause : RefusalCause) (cmd : CmdWord) (s : State) : Outcome :=
  .next (s.emit (rspWord (refusalCode cause) cmd))

/-- `refuse X` in a command's rule (R16): the word echoed is the command's own. -/
def refuse (cause : RefusalCause) (i : Instr) (s : State) : Outcome := refuseWord cause (encode i) s

/-! ### Reset and the host's events (R160, R194) -/

/-- Reset as an event between two commands (R160): the eight items take the values of R34. The host's own
record of events and responses is not the unit's and stays (log entry 8). -/
def takeReset (s : State) : State := { State.reset with hostq := s.hostq, rsps := s.rsps }

/-- The host's events after the next one. -/
def State.withHostq (s : State) (q : List HostEvent) : State := { s with hostq := q }

/-- The host issues `cmd` as its very next command. -/
def offer (cmd : CmdWord) (s : State) : State := s.withHostq (.command cmd :: s.hostq)

/-- The command word an opcode-table row's bits stand for, offered to the unit. No command is longer than 16
bits (R69), so bits above bit 15 are dropped. -/
def offerTableWord (nbits w : Nat) (s : State) : State := offer (BitVec.ofNat 16 (w % 2 ^ nbits)) s

end Sys2Proof.Machine
end

