-- ==== Sys2Proof/Machine/Operands.lean ====
section
/-! DEFINITION. The operand forms of R69 and R72: a data byte (format B) is used as it stands, an index or
number (format I) as an unsigned number, a register number (format R) names one of the seven registers. -/

namespace Sys2Proof.Machine

/-- The seven readable registers (R21). -/
inductive Reg where
  | status
  | len
  | seq
  | crc
  | clen
  | tag
  | dseq
  deriving DecidableEq, Repr

/-- Operand form I: the operand as an unsigned number 0..255, no scaling, no sign extension (R72). -/
def indexOperand (i : Byte) : Nat := i.toNat

/-- Operand form B: the operand is the data byte itself (R72). -/
def byteOperand (b : Byte) : Byte := b

/-- Operand form R: the register of a number, none for the reserved numbers 7..255 (R46, R111). -/
def regOperand (r : Byte) : Option Reg :=
  match r.toNat with
  | 0 => some .status
  | 1 => some .len
  | 2 => some .seq
  | 3 => some .crc
  | 4 => some .clen
  | 5 => some .tag
  | 6 => some .dseq
  | _ => none

/-- `REG(r)` (R111): a register's value, narrower registers zero-extended to 16 bits (R42 (c)). -/
def regValue (s : State) : Reg → Half
  | .status => s.status
  | .len => (lenReg s).zeroExtend 16
  | .seq => s.seq.zeroExtend 16
  | .crc => s.crc
  | .clen => s.clen.zeroExtend 16
  | .tag => s.tag
  | .dseq => s.dseq.zeroExtend 16

end Sys2Proof.Machine
end

