-- ==== Sys2Proof/Machine/Buffer.lean ====
section
/-! DEFINITION. The buffer commands (`41_buffer_and_registers.md`). -/

namespace Sys2Proof.Machine

/-- `BUF.CLR` (R112): the buffer is empty; the decode results of an earlier `DEC.RUN` stay (R165). -/
def execBufClr (s : State) : Outcome := respond 0 (s.withBuf Memory.clear)

/-- `BUF.PUSH b` (R113): `b` appended at index `LEN`; `OVERFLOW` when the buffer is full. The check is `LEN < 32`
(R47), the same as `LEN ≠ 32` in every state a run reaches (log entry 7). -/
def execBufPush (b : Byte) (s : State) : Outcome :=
  if s.buf.length < params.frameMax then respond 0 (s.withBuf (s.buf.append [byteOperand b]))
  else refuse .overflow (.bufPush b) s

/-- `BUF.RD i` (R114): the byte at index `i`, zero-extended; `INDEX` when `i ≥ LEN`. -/
def execBufRd (i : Byte) (s : State) : Outcome :=
  match s.buf.read (indexOperand i) with
  | none => refuse .index (.bufRd i) s
  | some b => respond (b.zeroExtend 16) s

end Sys2Proof.Machine
end

