-- ==== Sys2Proof/Machine/Crc.lean ====
section
/-! DEFINITION. The checksum function (R91, R92 of `40_crc.md`), over the parameter set of R10. -/

namespace Sys2Proof.Machine

/-- One round of R91: shift left by one (bit 15 is discarded, 0 enters bit 0), and XOR the polynomial if bit 15 was 1. -/
def crcShift (poly x : Half) : Half :=
  if x.getLsbD 15 then (x <<< 1) ^^^ poly else x <<< 1

/-- `k` rounds of R91. -/
def crcShifts (poly : Half) : Nat → Half → Half
  | 0, x => x
  | k + 1, x => crcShifts poly k (crcShift poly x)

/-- `crc_step` for a polynomial: the byte enters at bits 15:8, then eight rounds, most significant bit first. -/
def crcStepBy (poly : Half) (c : Half) (b : Byte) : Half :=
  crcShifts poly 8 (c ^^^ (b.zeroExtend 16 <<< 8))

/-- The CRC of a byte sequence for a configuration: from `CRC_INIT`, bytes in index order (R92), then the
final XOR, zero in R10's set. -/
def crcOf (p : Config) (s : List Byte) : Half :=
  s.foldl (crcStepBy p.crcPoly) p.crcInit ^^^ p.crcXorOut

/-- `crc_step(c, b)` (R91). -/
def crcStep (c : Half) (b : Byte) : Half := crcStepBy params.crcPoly c b

/-- `crc16(s)` (R92). -/
def crc16 (s : List Byte) : Half := crcOf params s

end Sys2Proof.Machine
end

