-- ==== Sys2Proof/Machine/Decimal.lean ====
section
/-! DEFINITION. The decimal fields of a frame (R64 to R66 of `30_encoding.md`): numbers as zero-padded ASCII
digits, most significant digit first (R41), and the tag read back. -/

namespace Sys2Proof.Machine

/-- The ASCII digit of the units of `m`: `0x30 + (m mod 10)`. -/
def asciiDigit (m : Nat) : Byte := BitVec.ofNat 8 (0x30 + m % 10)

/-- `n` as `k` ASCII digits: the digit at index `i` is that of `10^(k-1-i)`. -/
def decDigits (k n : Nat) : List Byte :=
  (List.range k).map fun i => asciiDigit (n / 10 ^ (k - 1 - i))

/-- `dec2(n)` (R64). -/
def dec2 (n : Nat) : List Byte := decDigits params.tagDigits n

/-- `dec5(v)` (R65). Its precondition, that five digits hold every 16-bit value, is the type of `v` (R9, U13). -/
def dec5 (v : Half) : List Byte := decDigits params.ckDigits v.toNat

/-- `is_digit(b)` (R66): `0x30 ≤ b ≤ 0x39`, and no other byte counts (D11). -/
def isDigit (b : Byte) : Bool := decide (0x30 ≤ b.toNat) && decide (b.toNat ≤ 0x39)

/-- `digit_val(b)` (R66), for a digit. -/
def digitVal (b : Byte) : Nat := b.toNat - 0x30

/-- The number two tag bytes spell, tens digit first (R66, D26): none unless there are two bytes, both digits. -/
def tagNumber : List Byte → Option Nat
  | [t0, t1] => if isDigit t0 && isDigit t1 then some (10 * digitVal t0 + digitVal t1) else none
  | _ => none

/-- The two tag bytes as the `TAG` register holds them: the byte at the lower index in bits 15:8 (R29, D15). -/
def tagWord : List Byte → Half
  | [t0, t1] => t0 ++ t1
  | _ => 0x0000

end Sys2Proof.Machine
end

