-- ==== Sys2Proof/Machine/Checksum.lean ====
section
/-! DEFINITION. The commands of the CRC generator (`40_crc.md`). -/

namespace Sys2Proof.Machine

/-- `CRC.CLR` (R95): the accumulator takes `CRC_INIT`. -/
def execCrcClr (s : State) : Outcome := respond 0 (s.withCrc params.crcInit)

/-- `CRC.UPD b` (R96): one byte into the accumulator. -/
def execCrcUpd (b : Byte) (s : State) : Outcome := respond 0 (s.withCrc (crcStep s.crc (byteOperand b)))

/-- `CRC.BUF` (R97): the CRC of the whole buffer; the old accumulator is not read. -/
def execCrcBuf (s : State) : Outcome := respond 0 (s.withCrc (crc16 s.buf))

/-- `CRC.DIG i` (R98): the checksum digit at index `i`, index 0 the 10^4 digit; `INDEX` when there is none, `i ≥ 5`. -/
def execCrcDig (i : Byte) (s : State) : Outcome :=
  match (dec5 s.crc)[indexOperand i]? with
  | none => refuse .index (.crcDig i) s
  | some d => respond (d.zeroExtend 16) s

end Sys2Proof.Machine
end

