-- ==== Sys2Proof/Machine/Flags.lean ====
section
/-! DEFINITION. The `STATUS` flags (R26): `VALID` bit 0, `TAGNUM` bit 1, `SHORT` bit 2, bits 15:3 zero. -/

namespace Sys2Proof.Machine

/-- `zext_16` of a truth value (R131). -/
def flagBit (b : Bool) : Half := (BitVec.ofBool b).zeroExtend 16

/-- The `STATUS` word of three flags: all three are written together, the reserved bits as 0 (R26, R131). -/
def statusWord (valid tagnum short : Bool) : Half :=
  flagBit valid ||| (flagBit tagnum <<< 1) ||| (flagBit short <<< 2)

/-- `VALID`, the source's `checksum_valid` (R26). -/
def validFlag (status : Half) : Bool := status.getLsbD 0

/-- `TAGNUM` (R26). -/
def tagnumFlag (status : Half) : Bool := status.getLsbD 1

/-- `SHORT` (R26). -/
def shortFlag (status : Half) : Bool := status.getLsbD 2

/-- `STATUS[15:3]`, the reserved field (R26). -/
def reservedBits (status : Half) : BitVec 13 := status.extractLsb' 3 13

end Sys2Proof.Machine
end

