-- ==== Sys2Proof/Machine/Frame.lean ====
section
/-! DEFINITION. The Data Frame (R60 to R63 of `30_encoding.md`): the pure functions `encode` and `decode`
that the encoder and decoder commands call (R17). The fields are located from the END of the frame (R61). -/

namespace Sys2Proof.Machine

/-- The covered bytes of a chunk and tag: `chunk ∥ tag bytes`, the tag as its ASCII digits (R62). -/
def coveredBytes (chunk : List Byte) (seq : Nat) : List Byte := chunk ++ dec2 seq

/-- `encode(c, s)` (R62): the covered bytes, then the digits of their CRC. -/
def encodeFrame (chunk : List Byte) (seq : Nat) : List Byte :=
  coveredBytes chunk seq ++ dec5 (crc16 (coveredBytes chunk seq))

/-- The checksum field, `f[n-5 .. n-1]`. -/
def frameChecksum (f : List Byte) : List Byte := f.drop (f.length - params.ckDigits)

/-- The tag field, `f[n-7 .. n-6]`. -/
def frameTag (f : List Byte) : List Byte := (f.drop (f.length - params.frameMin)).take params.tagDigits

/-- The chunk, `f[0 .. n-8]`. -/
def frameChunk (f : List Byte) : List Byte := f.take (f.length - params.frameMin)

/-- The result of `decode`: the fields as received and the verdict `checksum_valid`. -/
structure DecodedFrame where
  chunk : List Byte
  tag : List Byte
  valid : Bool
  deriving DecidableEq, Repr

/-- The CRC recomputed over the chunk and the tag bytes AS RECEIVED (R63, C5). -/
def frameCrc (f : List Byte) : Half := crc16 (frameChunk f ++ frameTag f)

/-- `decode(f)` (R63), for a frame of at least `FRAME_MIN` bytes: the recomputed digits are compared with the
received checksum byte for byte, never as a number. -/
def decodeFrame (f : List Byte) : DecodedFrame where
  chunk := frameChunk f
  tag := frameTag f
  valid := dec5 (frameCrc f) == frameChecksum f

end Sys2Proof.Machine
end

