-- ==== Sys2Proof/Machine/Decoder.lean ====
section
/-! DEFINITION. The frame decoder's command (`43_decoder.md`). -/

namespace Sys2Proof.Machine

/-- The registers after decoding a short frame (R131, R132): `SHORT` alone, no chunk, no tag; `CRC` is not written. -/
def decodedShort (s : State) : State := s.withDecode (statusWord false false true) 0 0x0000 params.dseqNone

/-- `DSEQ` for the two tag bytes: the number they spell, or `DSEQ_NONE` (R30, R131). -/
def dseqOf (tag : List Byte) : BitVec 7 :=
  match tagNumber tag with
  | none => params.dseqNone
  | some n => BitVec.ofNat 7 n

/-- The registers after decoding a frame of at least `FRAME_MIN` bytes (R131). -/
def decodedLong (s : State) : State :=
  let d := decodeFrame s.buf
  (s.withDecode (statusWord d.valid (tagNumber d.tag).isSome false)
    (BitVec.ofNat 5 d.chunk.length) (tagWord d.tag) (dseqOf d.tag)).withCrc (frameCrc s.buf)

/-- The registers after `DEC.RUN`, by the length of the buffer. `BUF` and `SEQ` are not written. -/
def decoded (s : State) : State :=
  if s.buf.length < params.frameMin then decodedShort s else decodedLong s

/-- `DEC.RUN` (R131): never refused for what the buffer holds (R130 (a)); the response is the new `STATUS`. -/
def execDecRun (s : State) : Outcome := respond (decoded s).status (decoded s)

end Sys2Proof.Machine
end

