-- ==== Sys2Proof/Machine/Encoder.lean ====
section
/-! DEFINITION. The frame encoder's commands (`42_encoder.md`). -/

namespace Sys2Proof.Machine

/-- `SEQ.SET n` (R121): `SEQ` takes `n`; `RANGE` when `n ≥ 100`. -/
def execSeqSet (n : Byte) (s : State) : Outcome :=
  if indexOperand n < params.tagMod then respond 0 (s.withSeq (BitVec.ofNat 7 (indexOperand n)))
  else refuse .range (.seqSet n) s

/-- `(SEQ + 1) mod 100` on naturals (R14, R122). -/
def nextTag (seq : BitVec 7) : BitVec 7 := BitVec.ofNat 7 ((seq.toNat + 1) % params.tagMod)

/-- `SEQ.INC` (R122): the tag advances and wraps to 0 after 99; the response is the new value. -/
def execSeqInc (s : State) : Outcome := respond ((nextTag s.seq).zeroExtend 16) (s.withSeq (nextTag s.seq))

/-- The buffer and `CRC` after encoding (R123): `BUF` is the frame of the old buffer and `SEQ`, `CRC` the CRC
of its covered bytes. `SEQ` is read, not written. -/
def encoded (s : State) : State :=
  (s.withBuf (encodeFrame s.buf s.seq.toNat)).withCrc (crc16 (coveredBytes s.buf s.seq.toNat))

/-- `ENC.RUN` (R123): the tag and checksum are appended in place; `LENGTH` when the buffer holds more than
`CHUNK_MAX` bytes; the response is the new `LEN`. -/
def execEncRun (s : State) : Outcome :=
  if params.chunkMax < s.buf.length then refuse .length .encRun s
  else respond ((lenReg (encoded s)).zeroExtend 16) (encoded s)

end Sys2Proof.Machine
end

