-- ==== Sys2Proof/Machine/Registers.lean ====
section
/-! DEFINITION. The register access command (`41_buffer_and_registers.md`). -/

namespace Sys2Proof.Machine

/-- `RD r` (R111): the register's value; `ILLEGAL_REG` for `r ≥ 7`. A read changes nothing (R45). -/
def execRd (r : Byte) (s : State) : Outcome :=
  match regOperand r with
  | none => refuse .illegalReg (.rd r) s
  | some x => respond (regValue s x) s

end Sys2Proof.Machine
end

