-- ==== Sys2Proof/Machine/Dispatch.lean ====
section
/-! DEFINITION. One arm per command. -/

namespace Sys2Proof.Machine

def exec (i : Instr) (s : State) : Host.Outcome State Fault Refusal :=
  match i with
  | .rd r => Sys2Proof.Machine.execRd r s
  | .bufClr => Sys2Proof.Machine.execBufClr s
  | .bufPush b => Sys2Proof.Machine.execBufPush b s
  | .bufRd k => Sys2Proof.Machine.execBufRd k s
  | .crcClr => Sys2Proof.Machine.execCrcClr s
  | .crcUpd b => Sys2Proof.Machine.execCrcUpd b s
  | .crcBuf => Sys2Proof.Machine.execCrcBuf s
  | .crcDig k => Sys2Proof.Machine.execCrcDig k s
  | .seqSet n => Sys2Proof.Machine.execSeqSet n s
  | .seqInc => Sys2Proof.Machine.execSeqInc s
  | .encRun => Sys2Proof.Machine.execEncRun s
  | .decRun => Sys2Proof.Machine.execDecRun s

end Sys2Proof.Machine
end

