-- ==== Sys2Proof/Machine/Issue.lean ====
section
/-! DEFINITION. How a host event reaches the unit (R48, R71, R160): what a step adds around `exec`. -/

namespace Sys2Proof.Machine

/-- A command word is decoded, then executed or refused `ILLEGAL_OP` (R71, R75). -/
def execWord (w : CmdWord) (s : State) : Outcome :=
  match decode w with
  | .command i => exec i s
  | .illegal _ => refuseWord .illegalOp w s

/-- The unit takes one event of the host. -/
def takeEvent (e : HostEvent) (s : State) : Outcome :=
  match e with
  | .command w => execWord w s
  | .reset => .next (takeReset s)

/-- The unit takes the host's next event and no other (R48). With no event it waits, unchanged: it never acts
unasked (R144, R194; DESIGN CHOICE, log entry 2). -/
def takeNext (s : State) : Outcome :=
  match s.hostq with
  | [] => .next s
  | e :: q => takeEvent e (s.withHostq q)

end Sys2Proof.Machine
end

