-- ==== Sys2Proof/Machine/Step.lean ====
section
/-! DEFINITION. One step: the unit takes the host's next event, to completion (R48). -/

namespace Sys2Proof.Machine

/-- One step of the machine: one host event, atomically (R44, R48). -/
def step (s : State) : Host.Outcome State Fault Refusal := takeNext s

/-- `s` with the table row's command as the host's very next event. The unit fetches nothing (R22): this is
the host issuing the command (log entry 1). -/
def State.withFetchWord (s : State) (nbits w : Nat) : State := offerTableWord nbits w s

end Sys2Proof.Machine
end

