-- ==== Sys2Proof/Machine/Asm.lean ====
section
/-! DEFINITION. The assembler line of R76 of `30_encoding.md`: one command per line, mnemonic in capitals, at
most one operand, `;` starts a comment. Text is a list of characters. What R76 leaves open of the text (blanks,
case of hexadecimal digits) is log entry 15. -/

namespace Sys2Proof.Machine

/-- What a line says. -/
inductive AsmLine where
  /-- nothing but blanks and a comment -/
  | blank
  | command (i : Instr)
  | malformed
  deriving DecidableEq, Repr

/-- An operand as written (R76). -/
inductive AsmOperand where
  | absent
  | number (n : Nat)
  | quoted (c : Char)
  | register (r : Reg)
  deriving DecidableEq, Repr

/-- A blank between the parts of a line. -/
def isBlank (c : Char) : Bool := c == ' ' || c == '\t'

/-- The characters after leading blanks. -/
def skipBlanks (cs : List Char) : List Char := cs.dropWhile isBlank

/-- Whether a character belongs to a word: neither a blank nor the start of a comment. -/
def inWord (c : Char) : Bool := !isBlank c && c != ';'

/-- Whether nothing but blanks and a comment is left. -/
def lineEnds (cs : List Char) : Bool :=
  match skipBlanks cs with
  | [] => true
  | c :: _ => c == ';'

/-- The value of a digit in base 10 or 16. -/
def charDigit (base : Nat) (c : Char) : Option Nat :=
  let v := if c.isDigit then c.toNat - 48 else if 'A' ≤ c ∧ c ≤ 'F' then c.toNat - 55
    else if 'a' ≤ c ∧ c ≤ 'f' then c.toNat - 87 else base
  if v < base then some v else none

/-- The value of a row of digits, `acc` the value of the digits before it. -/
def digitsFrom (base : Nat) (acc : Nat) : List Char → Option Nat
  | [] => some acc
  | c :: cs =>
    match charDigit base c with
    | none => none
    | some d => digitsFrom base (acc * base + d) cs

/-- A number as written: decimal, hexadecimal after `0x` or binary after `0b`, the number forms of R13. R76 shows the
first two only, and that an operand may be written in binary is the model's choice (DESIGN CHOICE, log entry 15). -/
def numberOf : List Char → Option Nat
  | [] => none
  | ['0', 'x'] => none
  | ['0', 'b'] => none
  | '0' :: 'x' :: cs => digitsFrom 16 0 cs
  | '0' :: 'b' :: cs => digitsFrom 2 0 cs
  | cs => digitsFrom 10 0 cs

/-- A register by its name (R76). -/
def registerNamed (cs : List Char) : Option Reg :=
  if cs = "STATUS".toList then some .status
  else if cs = "LEN".toList then some .len
  else if cs = "SEQ".toList then some .seq
  else if cs = "CRC".toList then some .crc
  else if cs = "CLEN".toList then some .clen
  else if cs = "TAG".toList then some .tag
  else if cs = "DSEQ".toList then some .dseq
  else none

/-- The number of a register (R46). -/
def regNumber : Reg → Byte
  | .status => 0
  | .len => 1
  | .seq => 2
  | .crc => 3
  | .clen => 4
  | .tag => 5
  | .dseq => 6

/-- The operand at the head of the text, and what follows it; none where it is no operand. -/
def operandText (cs : List Char) : Option (AsmOperand × List Char) :=
  match skipBlanks cs with
  | [] => some (.absent, [])
  | ';' :: rest => some (.absent, ';' :: rest)
  | '\'' :: c :: '\'' :: rest => some (.quoted c, rest)
  | w =>
    let word := w.takeWhile inWord
    let rest := w.dropWhile inWord
    match numberOf word with
    | some n => some (.number n, rest)
    | none =>
      match registerNamed word with
      | some r => some (.register r, rest)
      | none => none

/-- A number that fits the operand's 8 bits (R72). -/
def byteNumber (n : Nat) : Option Byte := if n < 256 then some (BitVec.ofNat 8 n) else none

/-- Format B: a number or a quoted ASCII character. -/
def byteText : AsmOperand → Option Byte
  | .number n => byteNumber n
  | .quoted c => if c.toNat < 128 then some (BitVec.ofNat 8 c.toNat) else none
  | _ => none

/-- Format I: a number. -/
def indexText : AsmOperand → Option Byte
  | .number n => byteNumber n
  | _ => none

/-- Format R: a register name or its number. -/
def registerText : AsmOperand → Option Byte
  | .number n => byteNumber n
  | .register r => some (regNumber r)
  | _ => none

/-- Format N: no operand. -/
def noText (i : Instr) : AsmOperand → Option Instr
  | .absent => some i
  | _ => none

/-- The command of a mnemonic and an operand, in the operand form of its format (R70, R76). -/
def commandNamed (mnemonic : List Char) (a : AsmOperand) : Option Instr :=
  if mnemonic = "RD".toList then (registerText a).map .rd
  else if mnemonic = "BUF.CLR".toList then noText .bufClr a
  else if mnemonic = "BUF.PUSH".toList then (byteText a).map .bufPush
  else if mnemonic = "BUF.RD".toList then (indexText a).map .bufRd
  else if mnemonic = "CRC.CLR".toList then noText .crcClr a
  else if mnemonic = "CRC.UPD".toList then (byteText a).map .crcUpd
  else if mnemonic = "CRC.BUF".toList then noText .crcBuf a
  else if mnemonic = "CRC.DIG".toList then (indexText a).map .crcDig
  else if mnemonic = "SEQ.SET".toList then (indexText a).map .seqSet
  else if mnemonic = "SEQ.INC".toList then noText .seqInc a
  else if mnemonic = "ENC.RUN".toList then noText .encRun a
  else if mnemonic = "DEC.RUN".toList then noText .decRun a
  else none

/-- One line of assembler (R76); `encode` of the command is the line's word. -/
def assembleLine (line : List Char) : AsmLine :=
  if lineEnds line then .blank
  else
    match operandText ((skipBlanks line).dropWhile inWord) with
    | none => .malformed
    | some (a, rest) =>
      match commandNamed ((skipBlanks line).takeWhile inWord) a with
      | none => .malformed
      | some i => if lineEnds rest then .command i else .malformed

/-- The mnemonic of a command (R70). -/
def mnemonicText : Instr → List Char
  | .rd _ => "RD".toList
  | .bufClr => "BUF.CLR".toList
  | .bufPush _ => "BUF.PUSH".toList
  | .bufRd _ => "BUF.RD".toList
  | .crcClr => "CRC.CLR".toList
  | .crcUpd _ => "CRC.UPD".toList
  | .crcBuf => "CRC.BUF".toList
  | .crcDig _ => "CRC.DIG".toList
  | .seqSet _ => "SEQ.SET".toList
  | .seqInc => "SEQ.INC".toList
  | .encRun => "ENC.RUN".toList
  | .decRun => "DEC.RUN".toList

/-- A digit character. -/
def digitChar (d : Nat) : Char := Char.ofNat (48 + d % 10)

/-- A byte in three decimal digits. -/
def byteDecimal (b : Byte) : List Char :=
  [digitChar (b.toNat / 100), digitChar (b.toNat / 10), digitChar b.toNat]

/-- A line that says a command: the mnemonic and, unless the format is N, the operand as a number. -/
def asmText (i : Instr) : List Char :=
  match formatOf i with
  | .N => mnemonicText i
  | _ => mnemonicText i ++ ' ' :: byteDecimal (operandOf i)

end Sys2Proof.Machine
end

