-- ==== Sys2Proof/Machine/Pseudo.lean ====
section
/-! DEFINITION. The pseudo-commands (R77 of `30_encoding.md`): expansions into commands, and the run of a
list of commands. They are no encodings and the step never sees them. -/

namespace Sys2Proof.Machine

/-- The five pseudo-commands of R77. `dump` takes the length the host read with `RD LEN`: "the host chooses how
many `BUF.RD`". -/
inductive Pseudo where
  | load (s : List Byte)
  | encode (chunk : List Byte) (n : Byte)
  | decode (frame : List Byte)
  | crc16 (s : List Byte)
  | dump (len : Nat)
  deriving DecidableEq, Repr

/-- The conditions R77 puts on the arguments. -/
def pseudoWellFormed : Pseudo → Bool
  | .load s => decide (s.length ≤ params.frameMax)
  | .encode c n => decide (c.length ≤ params.chunkMax) && decide (n.toNat < params.tagMod)
  | .decode f => decide (f.length ≤ params.frameMax)
  | .crc16 _ => true
  | .dump len => decide (len ≤ params.frameMax)

/-- `LOAD s`: `BUF.CLR`, then one `BUF.PUSH` per byte, in order. -/
def loadCommands (s : List Byte) : List Instr := .bufClr :: s.map .bufPush

/-- The expansion of a pseudo-command (R77). -/
def expand : Pseudo → List Instr
  | .load s => loadCommands s
  | .encode c n => loadCommands c ++ [.seqSet n, .encRun]
  | .decode f => loadCommands f ++ [.decRun]
  | .crc16 s => .crcClr :: s.map .crcUpd
  | .dump len => .rd 1 :: (List.range len).map fun i => .bufRd (BitVec.ofNat 8 i)

/-- Commands one after another, each to completion (R48). -/
def execAll : List Instr → State → Outcome
  | [], s => .next s
  | i :: is, s =>
    match exec i s with
    | .next t => execAll is t
    | .fault r => .fault r
    | .refused r => .refused r

end Sys2Proof.Machine
end

