-- ==== Sys2Proof/Machine/Protocol.lean ====
section
/-! DEFINITION. The ENVIRONMENT (`80_host_environment.md`): what the sender and receiver software do with
an FCU. It is out of scope as hardware (R7 (a) of `00_scope.md`) and the step calls nothing of it; it is written
down so that statements about the codec AS USED can be made. Conventions: log entry 11. -/

namespace Sys2Proof.Machine

/-! ### The link and the Control Frames (R181, R184) -/

/-- `ACK_GOOD`, `"1GUTACK"` in ASCII (R184). -/
def ackGood : List Byte := [0x31, 0x47, 0x55, 0x54, 0x41, 0x43, 0x4B]

/-- `ACK_BAD`, `"1BATACK"` in ASCII (R184). -/
def ackBad : List Byte := [0x31, 0x42, 0x41, 0x54, 0x41, 0x43, 0x4B]

/-- Most bytes of `END_MARKER` in its form (C1): a raw one is one frame of the link (R181), a framed one is a chunk. -/
def endMarkerMax (h : HostParams) : Nat :=
  match h.endMarkerPayload with
  | .raw => params.frameMax
  | .framed => params.chunkMax

/-- `FINAL_ACK` is "a byte string different from `END_MARKER`, `ACK_GOOD`, `ACK_BAD`" (the open parameters of
`92_eei_decisions.md`), and both strings fit where they travel. -/
def hostParamsWf (h : HostParams) : Bool :=
  h.finalAck != h.endMarker && h.finalAck != ackGood && h.finalAck != ackBad &&
    decide (h.finalAck.length ≤ params.frameMax) && decide (h.endMarker.length ≤ endMarkerMax h)

/-- What a `send` may hand to the peer's `poll`: nothing, or any frame of at most 32 bytes ("may drop or corrupt
frames", R181). -/
def linkMayDeliver (_sent : List Byte) : Option (List Byte) → Bool
  | none => true
  | some received => decide (received.length ≤ params.frameMax)

/-! ### The sender (R183, R185 to R187) -/

/-- The file cut into chunks of `CHUNK_MAX` bytes in file order, the last one shorter (R183). `fuel` bounds the
number of chunks. -/
def chunksFrom : Nat → List Byte → List (List Byte)
  | 0, _ => []
  | _ + 1, [] => []
  | fuel + 1, b :: bs => (b :: bs).take params.chunkMax :: chunksFrom fuel ((b :: bs).drop params.chunkMax)

/-- The chunk sequence of a file (R183): none for an empty file. -/
def chunksOf (file : List Byte) : List (List Byte) := chunksFrom file.length file

/-- The sender's input (R183, R190): the file's bytes, or none for a missing file, which is an empty chunk sequence. -/
def chunksOfInput : Option (List Byte) → List (List Byte)
  | none => []
  | some file => chunksOf file

/-- The sender's states (R185). -/
inductive SenderPhase where
  | preparing
  | sendingChunk
  | awaitingAck
  | advance
  | retry
  | allSent
  | sendingEnd
  | awaitingFinalAck
  | done
  deriving DecidableEq, Repr

/-- The sender: its state and the chunks not yet acknowledged, the current one first. The tag is the FCU's
`SEQ` (D22). -/
structure Sender where
  phase : SenderPhase
  chunks : List (List Byte)
  deriving DecidableEq, Repr

/-- What the sender hands to the link after its commands have run. -/
inductive Transmission where
  | silent
  /-- the bytes of `BUF`, read out with `RD LEN` and `BUF.RD` (R181) -/
  | buffer
  | raw (bytes : List Byte)
  deriving DecidableEq, Repr

/-- The commands and the transmission of `END_MARKER` in its form (C1): raw, or as the chunk of a frame. -/
def endMarkerSend (h : HostParams) : List Instr × Transmission :=
  match h.endMarkerPayload with
  | .raw => ([], .raw h.endMarker)
  | .framed => (loadCommands h.endMarker ++ [.encRun], .buffer)

/-- One transition of the sender (R185 to R187): the next state, the commands it issues to its FCU, and what it
then transmits. `inbound` is what `poll` gave within the wait, none on a timeout; any answer other than the one
awaited counts as no answer (R184, R186). -/
def senderStep (h : HostParams) (x : Sender) (inbound : Option (List Byte)) : Sender × List Instr × Transmission :=
  match x.phase with
  | .preparing => ({ x with phase := if x.chunks = [] then .allSent else .sendingChunk }, [], .silent)
  | .sendingChunk =>
    match x.chunks with
    | [] => ({ x with phase := .allSent }, [], .silent)
    | c :: _ => ({ x with phase := .awaitingAck }, loadCommands c ++ [.encRun], .buffer)
  | .awaitingAck => ({ x with phase := if inbound = some ackGood then .advance else .retry }, [], .silent)
  | .advance =>
    ({ phase := if x.chunks.tail = [] then .allSent else .sendingChunk, chunks := x.chunks.tail }, [.seqInc], .silent)
  | .retry => ({ x with phase := .sendingChunk }, [], .silent)
  | .allSent => ({ x with phase := .sendingEnd }, [], .silent)
  | .sendingEnd => ({ x with phase := .awaitingFinalAck }, endMarkerSend h)
  | .awaitingFinalAck =>
    ({ x with phase := if inbound = some h.finalAck then .done else .sendingEnd }, [], .silent)
  | .done => (x, [], .silent)

/-! ### The receiver (R188, R189) -/

/-- The receiver software's own state (R189): the last accepted tag as the raw `TAG` bytes, "no tag seen yet" at
first, the Transfer Buffer in arrival order, and whether it has stopped listening. -/
structure Receiver where
  lastAcceptedTag : Option Half
  transferBuffer : List (List Byte)
  finalized : Bool
  deriving DecidableEq, Repr

/-- The receiver before the first frame (R189). -/
def Receiver.start : Receiver := ⟨none, [], false⟩

/-- The chunk `DEC.RUN` left in the buffer: `BUF[0 .. CLEN-1]` (R131). -/
def decodedChunk (s : State) : List Byte := s.buf.take s.clen.toNat

/-- Whether the frame in the buffer, decoded, is `END_MARKER` in its form (R188 (1), C1): the raw bytes, or the
decoded chunk. -/
def isEndMarker (h : HostParams) (s : State) : Bool :=
  match h.endMarkerPayload with
  | .raw => s.buf == h.endMarker
  | .framed => decodedChunk s == h.endMarker

/-- Whether the decoded frame has a tag. A short one "reports ... no tag" (R132), and the placeholder 0x0000 in `TAG` is
compared with nothing (DESIGN CHOICE, log entry 20). A raw `END_MARKER` "has no chunk, no tag" (C1), whatever `DEC.RUN`
parses out of its end (DESIGN CHOICE, log entry 17). -/
def hasTag (h : HostParams) (s : State) : Bool :=
  !shortFlag s.status && !(h.endMarkerPayload == .raw && isEndMarker h s)

/-- Whether the frame carries the last accepted tag (R188, R192: "a plain equality test"), on the raw `TAG` bytes; a
frame without a tag never does. -/
def repeatsTag (h : HostParams) (r : Receiver) (s : State) : Bool := hasTag h s && r.lastAcceptedTag == some s.tag

/-- Case 3 of R188, a new tag and a matching checksum. A tag that is no number is the host's open reaction (R135, U2,
log entry 18). -/
def newValidVerdict (h : HostParams) (s : State) : Verdict :=
  if tagnumFlag s.status then .accept else h.nonNumericTagVerdict

/-- The four cases of R188, in the source's order, on the state of the receiver's FCU after `DEC.RUN`. Cases 1
and 2 do not look at `VALID` (U9). A repeated marker with the last accepted tag has "no explicit handling": any
value (U10). -/
def receiverVerdict (h : HostParams) (r : Receiver) (s : State) : Verdict :=
  if isEndMarker h s then
    if repeatsTag h r s then h.repeatedMarkerVerdict else .terminate
  else if repeatsTag h r s then .duplicate
  else if validFlag s.status then newValidVerdict h s
  else .reject

/-- What the receiver does on a verdict: its next state and the Control Frame it transmits (R188). -/
def receiverAct (h : HostParams) (r : Receiver) (s : State) : Verdict → Receiver × List Byte
  | .terminate => ({ r with finalized := true }, h.finalAck)
  | .duplicate => (r, ackGood)
  | .accept => ({ r with transferBuffer := r.transferBuffer ++ [decodedChunk s], lastAcceptedTag := some s.tag }, ackGood)
  | .reject => (r, ackBad)

/-- One received frame, already decoded in the receiver's FCU state `s` (R188), and what the receiver transmits. Once
finalized it has stopped listening: it changes nothing and transmits nothing. -/
def receiverStep (h : HostParams) (r : Receiver) (s : State) : Receiver × Option (List Byte) :=
  if r.finalized then (r, none)
  else ((receiverAct h r s (receiverVerdict h r s)).1, some (receiverAct h r s (receiverVerdict h r s)).2)

/-- What the output collaborator is given (R182, R189): nothing before `FINALIZED` (R190: "no partial-success output"),
then the Transfer Buffer in arrival order. -/
def Receiver.output (r : Receiver) : Option (List Byte) :=
  if r.finalized then some r.transferBuffer.flatten else none

end Sys2Proof.Machine
end

