-- ==== Sys2Proof/Machine/Session.lean ====
section
/-! DEFINITION. The ENVIRONMENT as a whole (R180, R181, R193 of `80_host_environment.md`): a sender with its FCU, a receiver
with its own, and the link between them, which plain data drives. The step of one FCU calls nothing of it. Conventions:
log entries 11 and 19. -/

namespace Sys2Proof.Machine

/-! ### The link (R181) -/

/-- What the link does with one frame: it "may drop or corrupt frames". -/
inductive LinkAction where
  | deliver
  | drop
  | alter (received : List Byte)
  deriving DecidableEq, Repr

/-- What the link carries of a frame sent, before its limit. -/
def linkCarries : LinkAction → List Byte → Option (List Byte)
  | .deliver, sent => some sent
  | .drop, _ => none
  | .alter received, _ => some received

/-- What waits at one end of the link: one frame or none (R181: half-duplex, "one arriving frame"). -/
abbrev Mailbox := Option (List Byte)

/-- `send(bytes) -> ()`: what then waits at the peer, a frame of at most 32 bytes or nothing. The sender learns nothing. -/
def linkGives (a : LinkAction) (sent : List Byte) : Mailbox :=
  if linkMayDeliver sent (linkCarries a sent) then linkCarries a sent else none

/-- `is_available() -> bool`: whether a frame waits. -/
def isAvailable (m : Mailbox) : Bool := m.isSome

/-- `poll() -> Option<bytes>`: the frame that waits, if one does, and what waits afterwards. It does not block. -/
def poll (m : Mailbox) : Option (List Byte) × Mailbox := (m, none)

/-! ### The host and its FCU -/

/-- An FCU after a list of commands. -/
def afterAll (is : List Instr) (s : State) : State :=
  match execAll is s with
  | .next t => t
  | .fault _ => s
  | .refused _ => s

/-- The data of the responses to a list of commands, in order (R48). -/
def answersTo (is : List Instr) (u : State) : List Half := ((afterAll is u).rsps.drop u.rsps.length).map rspData

/-- `LEN` as the host reads it, with `RD LEN`. -/
def lenRead (u : State) : Nat := ((answersTo [.rd 1] u).headD 0).toNat

/-- The commands that read a frame out (R181): `RD LEN`, then `BUF.RD 0 .. LEN-1`, `LEN` being the response to the first. -/
def readOut (u : State) : List Instr := expand (.dump (lenRead u))

/-- The frame as read out: the response to each `BUF.RD`, in order, its byte in the low half of the data. -/
def frameRead (u : State) : List Byte := (answersTo (readOut u) u).tail.map fun v => v.truncate 8

/-- What a host does to hand a transmission to `send` (R181): its FCU afterwards, and the bytes handed over. -/
def handOver (u : State) : Transmission → State × Option (List Byte)
  | .silent => (u, none)
  | .buffer => (afterAll (readOut u) u, some (frameRead u))
  | .raw bytes => (u, some bytes)

/-! ### The two ends -/

/-- A frame arrives at the receiver: it decodes it in its FCU (R77 `DECODE`) and reacts (R188). A finalized receiver
does not listen. -/
def receive (h : HostParams) (r : Receiver) (u : State) (frame : List Byte) : Receiver × State × Option (List Byte) :=
  if r.finalized then (r, u, none)
  else
    let v := afterAll (expand (.decode frame)) u
    ((receiverStep h r v).1, v, (receiverStep h r v).2)

/-! ### The session -/

/-- Both ends, what waits for the sender's next `poll`, and a record of what each end transmitted, oldest first. -/
structure Session where
  sender : Sender
  senderUnit : State
  receiver : Receiver
  receiverUnit : State
  inbox : Mailbox
  sent : List (List Byte)
  answered : List (List Byte)
  deriving DecidableEq, Repr

/-- Before a transfer of a file, or of a missing one: both FCUs after reset, nothing on the link. -/
def Session.start (file : Option (List Byte)) : Session where
  sender := ⟨.preparing, chunksOfInput file⟩
  senderUnit := .reset
  receiver := .start
  receiverUnit := .reset
  inbox := none
  sent := []
  answered := []

/-- A frame the receiver polled: its reaction, and its answer on the way back. -/
def Session.arrive (h : HostParams) (back : LinkAction) (frame : List Byte) (x : Session) : Session :=
  let y := receive h x.receiver x.receiverUnit frame
  { x with
    receiver := y.1
    receiverUnit := y.2.1
    inbox := y.2.2.bind (linkGives back)
    answered := x.answered ++ y.2.2.toList }

/-- The receiver's turn (R188 `LISTENING`): where a frame is available it polls it and reacts, else it goes on waiting. -/
def Session.listen (h : HostParams) (back : LinkAction) (mailbox : Mailbox) (x : Session) : Session :=
  match isAvailable mailbox, (poll mailbox).1 with
  | true, some frame => x.arrive h back frame
  | _, _ => x

/-- A frame the sender hands to the link, and the receiver's turn. -/
def Session.send (h : HostParams) (link : LinkAction × LinkAction) (frame : List Byte) (x : Session) : Session :=
  { x with sent := x.sent ++ [frame] }.listen h link.2 (linkGives link.1 frame)

/-- What the sender does on what its `poll` gives (R185): its next state, the commands to its FCU, the transmission. -/
def Session.senderActs (h : HostParams) (x : Session) : Sender × List Instr × Transmission :=
  senderStep h x.sender (poll x.inbox).1

/-- The sender's FCU after those commands and the read-out, and the bytes handed to `send`. -/
def Session.handsOver (h : HostParams) (x : Session) : State × Option (List Byte) :=
  handOver (afterAll (x.senderActs h).2.1 x.senderUnit) (x.senderActs h).2.2

/-- The sender's own part of a transition. -/
def Session.senderMoves (h : HostParams) (x : Session) : Session :=
  { x with
    sender := (x.senderActs h).1
    senderUnit := (x.handsOver h).1
    inbox := (poll x.inbox).2 }

/-- One transition of the session: the sender moves, and where it transmits, the link carries the frame there and the
answer back, `link` saying what it does to each. -/
def sessionStep (h : HostParams) (link : LinkAction × LinkAction) (x : Session) : Session :=
  match (x.handsOver h).2 with
  | none => x.senderMoves h
  | some frame => (x.senderMoves h).send h link frame

/-- Transitions one after another, the link's actions given for each. -/
def sessionRun (h : HostParams) (links : List (LinkAction × LinkAction)) (x : Session) : Session :=
  links.foldl (fun y link => sessionStep h link y) x

end Sys2Proof.Machine
end

