-- ==== Sys2Proof/Safety.lean ====
section
/-! DEFINITION. The terms in which claims are made: the invariant of R31, agreement of two states on the
unit's own state, what a run from reset can reach, and a run with no refused command. -/

namespace Sys2Proof.Machine

/-- The invariant of R31 (a) to (g), of every state a run from reset reaches. -/
structure State.Inv (s : State) : Prop where
  /-- (a) `LEN ≤ 32` -/
  len : s.buf.length ≤ 32
  /-- (b) `SEQ ≤ 99` -/
  seq : s.seq.toNat ≤ 99
  /-- (c) `CLEN ≤ 25` -/
  clen : s.clen.toNat ≤ 25
  /-- (d) `DSEQ ≤ 99` or `DSEQ = 127` -/
  dseq : s.dseq.toNat ≤ 99 ∨ s.dseq.toNat = 127
  /-- (d) `DSEQ ≤ 99` exactly when `TAGNUM = 1` -/
  dseq_iff : s.dseq.toNat ≤ 99 ↔ tagnumFlag s.status = true
  /-- (e) `STATUS[15:3] = 0` -/
  reserved : reservedBits s.status = 0
  /-- (f) what `SHORT = 1` implies -/
  short : shortFlag s.status = true →
    validFlag s.status = false ∧ tagnumFlag s.status = false ∧ s.clen = 0 ∧ s.tag = 0 ∧ s.dseq = 127
  /-- (g) `VALID = 1` implies `SHORT = 0` -/
  valid : validFlag s.status = true → shortFlag s.status = false

/-- The eight items of R20 agree: the two states are the same unit, whatever the host has done (R20: "Nothing
else survives from one command to the next"). -/
def SameUnit (s t : State) : Prop :=
  t.buf = s.buf ∧ t.seq = s.seq ∧ t.crc = s.crc ∧ t.status = s.status ∧ t.clen = s.clen ∧ t.tag = s.tag ∧
    t.dseq = s.dseq

/-- The states a run from reset reaches, whatever events the host sends (R31, R161). -/
inductive Reachable : State → Prop where
  | reset (q : List HostEvent) : Reachable (State.reset.withHostq q)
  | step {s t : State} : Reachable s → Machine.step s = .next t → Reachable t

/-- No response of the list is a refusal (R141: the premise a claim about a program takes, R168). -/
def noneRefused (rs : List RspWord) : Bool := rs.all fun r => rspCode r == 0

/-- The next state of an outcome, for tests and witnesses. -/
def nextOf : Host.Outcome State Fault Refusal → Option State
  | .next t => some t
  | .fault _ => none
  | .refused _ => none

/-- `n` steps, stopping at the first that has no next state. -/
def runSteps : Nat → State → Outcome
  | 0, s => .next s
  | n + 1, s =>
    match step s with
    | .next t => runSteps n t
    | .fault r => .fault r
    | .refused r => .refused r

end Sys2Proof.Machine
end

