-- ==== Sys2Proof/Certificates/Slice0/Obligations.lean ====
section
/-! DEFINITION. The statements for the provers, one `def Obligations.<Name> : Prop` each. A response `(code, data)`
is `rspWord code data`; `offer w s` is the state `s` with the word `w` as the host's next event, and the step on it
leaves the host's queue as it was in `s`. -/

open Sys2Proof Sys2Proof.Machine

/-! ### Terms of the statements, written from the rules and not from the model's functions -/

namespace Sys2Proof.Machine

/-- The code a command word is answered with, by the table of R142 and the opcode list of R70. -/
def refusalTable (w : CmdWord) (s : State) : BitVec 4 :=
  let op := w.toNat / 256
  let arg := w.toNat % 256
  if op ∉ [0x01, 0x10, 0x11, 0x12, 0x20, 0x21, 0x22, 0x23, 0x30, 0x31, 0x32, 0x40] then 1
  else if op ∈ [0x10, 0x20, 0x22, 0x31, 0x32, 0x40] ∧ arg ≠ 0 then 1
  else if op = 0x01 ∧ 7 ≤ arg then 2
  else if op = 0x11 ∧ s.buf.length = 32 then 3
  else if op = 0x12 ∧ s.buf.length ≤ arg then 4
  else if op = 0x23 ∧ 5 ≤ arg then 4
  else if op = 0x30 ∧ 100 ≤ arg then 5
  else if op = 0x32 ∧ 26 ≤ s.buf.length then 6
  else 0

/-- The data an executed command responds with (R73, D24), `s` before it and `t` after it. -/
def executedData (i : Instr) (s t : State) : Half :=
  match i with
  | .rd r => [s.status, BitVec.ofNat 16 s.buf.length, s.seq.zeroExtend 16, s.crc, s.clen.zeroExtend 16, s.tag,
      s.dseq.zeroExtend 16].getD r.toNat 0
  | .bufRd k => (s.buf.getD k.toNat 0).zeroExtend 16
  | .crcDig k => BitVec.ofNat 16 (0x30 + s.crc.toNat / 10 ^ (4 - k.toNat) % 10)
  | .seqInc => t.seq.zeroExtend 16
  | .encRun => BitVec.ofNat 16 t.buf.length
  | .decRun => t.status
  | .bufClr | .bufPush _ | .crcClr | .crcUpd _ | .crcBuf | .seqSet _ => 0

/-- The shift-register view of R93 (b): one input bit, feedback into bits 0, 5 and 12. -/
def serialBit (reg : Half) (d : Bool) : Half :=
  (reg <<< 1) ^^^ (if (d ^^ reg.getLsbD 15) then 1#16 ||| (1#16 <<< 5) ||| (1#16 <<< 12) else 0#16)

/-- A bit string as a polynomial over GF(2), bit `i` the coefficient of `x^i` (R93 (a)). -/
noncomputable def bitsPoly {n : Nat} (v : BitVec n) : Polynomial (ZMod 2) :=
  ∑ i ∈ Finset.range n, if v.getLsbD i then Polynomial.X ^ i else 0

/-- A byte sequence as a polynomial, the first byte's bit 7 the highest coefficient (R93 (a)). -/
noncomputable def messagePoly (s : List Byte) : Polynomial (ZMod 2) :=
  s.foldl (fun acc b => acc * Polynomial.X ^ 8 + bitsPoly b) 0

/-- Bit `k` of the byte at index `a` flipped. -/
def flipBit (f : List Byte) (a k : Nat) : List Byte := f.modify a fun b => b ^^^ (1#8 <<< k)

/-- The two bytes are no numeric tag (R66): not both in 0x30..0x39. -/
def notNumeric (t0 t1 : Byte) : Prop :=
  ¬ ((0x30 ≤ t0.toNat ∧ t0.toNat ≤ 0x39) ∧ (0x30 ≤ t1.toNat ∧ t1.toNat ≤ 0x39))

/-- The number of commands in a queue of host events. -/
def commandCount (q : List HostEvent) : Nat := (q.filter fun e => e ≠ .reset).length

/-- A hexadecimal digit as written. -/
def hexChar (n : Nat) : Char := if n < 10 then Char.ofNat (48 + n) else Char.ofNat (55 + n)

/-- A line with a byte written as R13 and R76 write it, `0x` and two digits. -/
def hexLine (mnemonic : String) (b : Byte) : List Char :=
  mnemonic.toList ++ [' ', '0', 'x', hexChar (b.toNat / 16), hexChar (b.toNat % 16)]

/-- The chunk `c` sent with tag `n` would be taken for `END_MARKER` (C4): as a chunk, or, for a raw marker, as a frame. -/
def chunkIsMarker (h : HostParams) (c : List Byte) (n : Nat) : Prop :=
  match h.endMarkerPayload with
  | .raw => encodeFrame c n = h.endMarker
  | .framed => c = h.endMarker

/-- What the sender transmits for `END_MARKER` (C1): the raw string, or a Data Frame with the next tag, `n`. -/
def markerFrame (h : HostParams) (n : Nat) : List Byte :=
  match h.endMarkerPayload with
  | .raw => h.endMarker
  | .framed => encodeFrame h.endMarker n

/-- The sender's poll does not give `ack`: the answer is dropped, or arrives as something else (R184: "any answer other
than `ACK_GOOD`"). -/
def answerLost (ack : List Byte) (back : LinkAction) : Prop := back = .drop ∨ ∃ g, back = .alter g ∧ g ≠ ack

/-- The three transitions of one attempt to send a chunk (transmit, wait, and then retry or advance), the link doing
the same in all of them; it carries something in the first only. -/
def attempt (link : LinkAction × LinkAction) : List (LinkAction × LinkAction) := List.replicate 3 link

/-- The two transitions of one transmission of `END_MARKER`: transmit and wait. -/
def endAttempt (link : LinkAction × LinkAction) : List (LinkAction × LinkAction) := List.replicate 2 link

end Sys2Proof.Machine

/-! ### Encoding and decoding -/

/-- Every command decodes back from its word with every operand bit (R69, R71). -/
def Obligations.DecodeOfEncodeIsIdentity : Prop := ∀ i : Instr, decode (encode i) = .command i

/-- R71: the decoder in its order, total on all 65536 words, each word exactly one command or refused `ILLEGAL_OP`;
and a step on a word executes the command or takes that refusal. -/
def Obligations.EveryWordDecodesAsR71Says : Prop :=
  (∀ w : CmdWord, decode w = .illegal .undefinedOpcode ↔
    w.toNat / 256 ∉ [0x01, 0x10, 0x11, 0x12, 0x20, 0x21, 0x22, 0x23, 0x30, 0x31, 0x32, 0x40]) ∧
  (∀ w : CmdWord, decode w = .illegal .operandNotZero ↔
    w.toNat / 256 ∈ [0x10, 0x20, 0x22, 0x31, 0x32, 0x40] ∧ w.toNat % 256 ≠ 0) ∧
  (∀ (w : CmdWord) (i : Instr), decode w = .command i ↔ w = encode i) ∧
  (∀ (w : CmdWord) (i : Instr) (s : State), decode w = .command i → step (offer w s) = exec i s) ∧
  (∀ (w : CmdWord) (why : IllegalWord) (s : State), decode w = .illegal why →
    step (offer w s) = .next { s with rsps := s.rsps ++ [rspWord 1 w] }) ∧
  (∀ w : CmdWord, (∃ why, decode w = .illegal why) ↔ matchingRows w = []) ∧
  (∀ w : CmdWord, (matchingRows w).length ≤ 1)

/-- R70: the twelve rows, each by its match and mask; every other opcode is illegal. The model's table of rows has
exactly these masks and matches, and reads them the same way. -/
def Obligations.CommandOfTheMatchingRow : Prop :=
  (∀ w : CmdWord,
    (∀ r : Byte, decode w = .command (.rd r) ↔ w &&& 0xFF00 = 0x0100 ∧ r.zeroExtend 16 = w &&& 0x00FF) ∧
    (decode w = .command .bufClr ↔ w &&& 0xFFFF = 0x1000) ∧
    (∀ b : Byte, decode w = .command (.bufPush b) ↔ w &&& 0xFF00 = 0x1100 ∧ b.zeroExtend 16 = w &&& 0x00FF) ∧
    (∀ i : Byte, decode w = .command (.bufRd i) ↔ w &&& 0xFF00 = 0x1200 ∧ i.zeroExtend 16 = w &&& 0x00FF) ∧
    (decode w = .command .crcClr ↔ w &&& 0xFFFF = 0x2000) ∧
    (∀ b : Byte, decode w = .command (.crcUpd b) ↔ w &&& 0xFF00 = 0x2100 ∧ b.zeroExtend 16 = w &&& 0x00FF) ∧
    (decode w = .command .crcBuf ↔ w &&& 0xFFFF = 0x2200) ∧
    (∀ i : Byte, decode w = .command (.crcDig i) ↔ w &&& 0xFF00 = 0x2300 ∧ i.zeroExtend 16 = w &&& 0x00FF) ∧
    (∀ n : Byte, decode w = .command (.seqSet n) ↔ w &&& 0xFF00 = 0x3000 ∧ n.zeroExtend 16 = w &&& 0x00FF) ∧
    (decode w = .command .seqInc ↔ w &&& 0xFFFF = 0x3100) ∧
    (decode w = .command .encRun ↔ w &&& 0xFFFF = 0x3200) ∧
    (decode w = .command .decRun ↔ w &&& 0xFFFF = 0x4000) ∧
    (w.toNat / 256 ∉ [0x01, 0x10, 0x11, 0x12, 0x20, 0x21, 0x22, 0x23, 0x30, 0x31, 0x32, 0x40] →
      ∃ why, decode w = .illegal why)) ∧
  (∀ (w : CmdWord) (row : OpcodeRow), row ∈ matchingRows w ↔ row ∈ opcodeTable ∧
    ∃ i, decode w = .command i ∧ opcodeOf i = row.op ∧ formatOf i = row.format)

/-- Words written out from R69 and R70, one per family, and the row reading of them. -/
def Obligations.WrittenOutWordsDecode : Prop :=
  decode 0b0000000100000110#16 = .command (.rd 6) ∧
  decode 0b0001000101000001#16 = .command (.bufPush 0x41) ∧
  decode 0b0010001100000100#16 = .command (.crcDig 4) ∧
  decode 0b0011000001100011#16 = .command (.seqSet 99) ∧
  decode 0b0100000000000000#16 = .command .decRun ∧
  decode 0b0000000000000000#16 = .illegal .undefinedOpcode ∧
  decode 0b0011001000000001#16 = .illegal .operandNotZero ∧
  decodeTableWord 16 0x302A = some (.seqSet 42)

/-- R76: the twelve mnemonics of R70 written out, each with its operand in hexadecimal, the seven register names, a
decimal operand and a quoted character, and the line the model writes for a command. The text's details are the
model's choice (log entry 15). -/
def Obligations.AssembledTextIsTheCommand : Prop :=
  (∀ b : Byte, assembleLine (hexLine "RD" b) = .command (.rd b) ∧
    assembleLine (hexLine "BUF.PUSH" b) = .command (.bufPush b) ∧
    assembleLine (hexLine "BUF.RD" b) = .command (.bufRd b) ∧
    assembleLine (hexLine "CRC.UPD" b) = .command (.crcUpd b) ∧
    assembleLine (hexLine "CRC.DIG" b) = .command (.crcDig b) ∧
    assembleLine (hexLine "SEQ.SET" b) = .command (.seqSet b)) ∧
  assembleLine "BUF.CLR".toList = .command .bufClr ∧ assembleLine "CRC.CLR".toList = .command .crcClr ∧
  assembleLine "CRC.BUF".toList = .command .crcBuf ∧ assembleLine "SEQ.INC".toList = .command .seqInc ∧
  assembleLine "ENC.RUN".toList = .command .encRun ∧ assembleLine "DEC.RUN".toList = .command .decRun ∧
  assembleLine "RD STATUS".toList = .command (.rd 0) ∧ assembleLine "RD LEN".toList = .command (.rd 1) ∧
  assembleLine "RD SEQ".toList = .command (.rd 2) ∧ assembleLine "RD CRC".toList = .command (.rd 3) ∧
  assembleLine "RD CLEN".toList = .command (.rd 4) ∧ assembleLine "RD TAG".toList = .command (.rd 5) ∧
  assembleLine "RD DSEQ".toList = .command (.rd 6) ∧
  assembleLine "BUF.PUSH 65 ; the letter A".toList = .command (.bufPush 0x41) ∧
  (∀ n : Fin 128, n.val ≠ 10 → n.val ≠ 13 →
    assembleLine ("BUF.PUSH '".toList ++ [Char.ofNat n.val, '\'']) = .command (.bufPush (BitVec.ofNat 8 n.val)) ∧
    assembleLine ("CRC.UPD '".toList ++ [Char.ofNat n.val, '\'']) = .command (.crcUpd (BitVec.ofNat 8 n.val))) ∧
  (∀ i : Instr, assembleLine (asmText i) = .command i)

/-! ### The step and the host's events -/

/-- A step runs the decoded command on the state with that event taken off the host's queue and nothing else
changed; so it does on the word the host stores (R48, R71). -/
def Obligations.StepRunsDecodedCommand : Prop :=
  (∀ (s : State) (w : CmdWord) (q : List HostEvent) (i : Instr), s.hostq = .command w :: q →
    decode w = .command i → step s = exec i { s with hostq := q }) ∧
  (∀ (s : State) (i : Instr), step (s.withFetchWord 16 (encode i).toNat) = exec i s)

/-- R34: the state after reset, both as the model's start and as the reset event leaves it from any state (R160);
the host's record is the model's own (log entries 1 and 8). -/
def Obligations.ResetLeavesStatedValues : Prop :=
  (State.reset.buf = [] ∧ lenReg State.reset = 0 ∧ State.reset.seq = 0 ∧ State.reset.crc = 0x0000 ∧
    State.reset.status = 0x0000 ∧ validFlag State.reset.status = false ∧ tagnumFlag State.reset.status = false ∧
    shortFlag State.reset.status = false ∧ State.reset.clen = 0 ∧ State.reset.tag = 0x0000 ∧
    State.reset.dseq = 127) ∧
  (∀ (s : State) (q : List HostEvent), s.hostq = .reset :: q →
    step s = .next { buf := [], seq := 0, crc := 0, status := 0, clen := 0, tag := 0, dseq := 127,
                     hostq := q, rsps := s.rsps })

/-- With no event of the host the unit waits unchanged. The MODEL'S choice (log entry 2), on the ground that the
unit "never signals the host unasked" (R144). -/
def Obligations.IdleUnitStaysAsItIs : Prop := ∀ s : State, s.hostq = [] → step s = .next s

/-- R73: every word, in every state, gets exactly one response; code 0 carries the command's result, any other
code comes with no state change and the word itself. -/
def Obligations.EveryCommandGetsOneResponse : Prop :=
  ∀ (w : CmdWord) (s : State), s.buf.length ≤ 32 → ∃ (t : State) (code : BitVec 4) (data : Half),
    step (offer w s) = .next t ∧ t.rsps = s.rsps ++ [rspWord code data] ∧ t.hostq = s.hostq ∧
    (code = 0 → ∃ i, decode w = .command i ∧ data = executedData i s t) ∧
    (code ≠ 0 → t = { s with rsps := s.rsps ++ [rspWord code data] } ∧ data = w)

/-- Every step of every state has a next state (R140: no fault, no stuck state, no hang), and a queue of events is
used up one event a step, one response per command, in order, earlier responses kept (R48). It rests on the model's
choices: the queue and the record of responses (log entry 1), the idle step (log entry 2), and a reset that takes its
place in the queue and gives no response (log entry 8). -/
def Obligations.HostQueueDrains : Prop :=
  (∀ s : State, ∃ t, step s = .next t) ∧
  (∀ (n : Nat) (s : State), n ≤ s.hostq.length → ∃ t new, runSteps n s = .next t ∧ t.hostq = s.hostq.drop n ∧
    t.rsps = s.rsps ++ new ∧ new.length = commandCount (s.hostq.take n))

/-- R20, R33: only the eight items survive from one command to the next. Two states that agree on them and have
the same events to come stay in agreement and give the same responses, whatever came before. -/
def Obligations.OnlyTheEightItemsMatter : Prop :=
  ∀ (n : Nat) (s s' : State), SameUnit s s' → s'.hostq = s.hostq → ∃ t t' new,
    runSteps n s = .next t ∧ runSteps n s' = .next t' ∧ SameUnit t t' ∧ t'.hostq = t.hostq ∧
    t.rsps = s.rsps ++ new ∧ t'.rsps = s'.rsps ++ new

/-! ### The invariant -/

/-- Every step keeps the invariant of R31, from every state that has it. -/
def Obligations.StepKeepsR31Invariant : Prop := ∀ s t : State, s.Inv → step s = .next t → t.Inv

/-- The reset state has the invariant of R31, whatever the host is about to do. -/
def Obligations.ResetHasR31Invariant : Prop := ∀ q : List HostEvent, (State.reset.withHostq q).Inv

/-- R31: every state reachable from reset has (a) to (g), written out; `VALID` and `TAGNUM` are independent. -/
def Obligations.ReachableStatesMeetR31 : Prop :=
  (∀ s : State, Reachable s →
    s.buf.length ≤ 32 ∧ s.seq.toNat ≤ 99 ∧ s.clen.toNat ≤ 25 ∧ (s.dseq.toNat ≤ 99 ∨ s.dseq.toNat = 127) ∧
    (s.dseq.toNat ≤ 99 ↔ s.status.getLsbD 1 = true) ∧ s.status.toNat < 8 ∧
    (s.status.getLsbD 2 = true → s.status.getLsbD 0 = false ∧ s.status.getLsbD 1 = false ∧ s.clen = 0 ∧ s.tag = 0 ∧
      s.dseq = 127) ∧
    (s.status.getLsbD 0 = true → s.status.getLsbD 2 = false)) ∧
  (∀ v n : Bool, ∃ s, Reachable s ∧ s.status.getLsbD 0 = v ∧ s.status.getLsbD 1 = n)

/-! ### The commands, rule by rule -/

/-- R111: `RD r`. -/
def Obligations.RdRespondsRegister : Prop :=
  (∀ r : Byte, encode (.rd r) = 0x0100 ||| r.zeroExtend 16) ∧
  (∀ s : State, exec (.rd 0) s = .next { s with rsps := s.rsps ++ [rspWord 0 s.status] }) ∧
  (∀ s : State, s.buf.length ≤ 32 →
    exec (.rd 1) s = .next { s with rsps := s.rsps ++ [rspWord 0 (BitVec.ofNat 16 s.buf.length)] }) ∧
  (∀ s : State, exec (.rd 2) s = .next { s with rsps := s.rsps ++ [rspWord 0 (s.seq.zeroExtend 16)] }) ∧
  (∀ s : State, exec (.rd 3) s = .next { s with rsps := s.rsps ++ [rspWord 0 s.crc] }) ∧
  (∀ s : State, exec (.rd 4) s = .next { s with rsps := s.rsps ++ [rspWord 0 (s.clen.zeroExtend 16)] }) ∧
  (∀ s : State, exec (.rd 5) s = .next { s with rsps := s.rsps ++ [rspWord 0 s.tag] }) ∧
  (∀ s : State, exec (.rd 6) s = .next { s with rsps := s.rsps ++ [rspWord 0 (s.dseq.zeroExtend 16)] }) ∧
  (∀ (r : Byte) (s : State), 7 ≤ r.toNat →
    exec (.rd r) s = .next { s with rsps := s.rsps ++ [rspWord 2 (0x0100 ||| r.zeroExtend 16)] }) ∧
  (∀ s : State, s.Inv → s.status.toNat / 8 = 0) ∧
  (∀ r : Byte, r.toNat ≤ 6 →
    exec (.rd r) .reset = .next { State.reset with rsps := [rspWord 0 (if r = 6 then 0x007F else 0)] })

/-- R112: `BUF.CLR`. Afterwards no index reads as a byte. -/
def Obligations.BufClrEmptiesBuffer : Prop :=
  encode .bufClr = 0x1000 ∧
  (∀ s : State, exec .bufClr s = .next { s with buf := [], rsps := s.rsps ++ [rspWord 0 0] }) ∧
  (∀ s t : State, exec .bufClr s = .next t → lenReg t = 0 ∧ ∀ a : Nat, readByte t a = none) ∧
  (∀ (a : Byte) (s : State), a ≠ 0 →
    step (offer (0x10#8 ++ a) s) = .next { s with rsps := s.rsps ++ [rspWord 1 (0x10#8 ++ a)] })

/-- R113: `BUF.PUSH b`. -/
def Obligations.BufPushAppendsByte : Prop :=
  (∀ b : Byte, encode (.bufPush b) = 0x1100 ||| b.zeroExtend 16) ∧
  (∀ (b : Byte) (s : State), s.buf.length < 32 →
    exec (.bufPush b) s = .next { s with buf := s.buf ++ [b], rsps := s.rsps ++ [rspWord 0 0] }) ∧
  (∀ (b : Byte) (s : State), s.buf.length = 32 →
    exec (.bufPush b) s = .next { s with rsps := s.rsps ++ [rspWord 3 (0x1100 ||| b.zeroExtend 16)] })

/-- R114: `BUF.RD i`, refused for every index at or above `LEN`, hence for every `i ≥ 32` and on an empty buffer. -/
def Obligations.BufRdRespondsByte : Prop :=
  (∀ i : Byte, encode (.bufRd i) = 0x1200 ||| i.zeroExtend 16) ∧
  (∀ (i : Byte) (s : State) (h : i.toNat < s.buf.length),
    exec (.bufRd i) s = .next { s with rsps := s.rsps ++ [rspWord 0 (s.buf[i.toNat].zeroExtend 16)] }) ∧
  (∀ (i : Byte) (s : State), s.buf.length ≤ i.toNat →
    exec (.bufRd i) s = .next { s with rsps := s.rsps ++ [rspWord 4 (0x1200 ||| i.zeroExtend 16)] }) ∧
  (∀ (i : Byte) (s : State), s.buf.length ≤ 32 → 32 ≤ i.toNat →
    exec (.bufRd i) s = .next { s with rsps := s.rsps ++ [rspWord 4 (0x1200 ||| i.zeroExtend 16)] })

/-- R95: `CRC.CLR`. -/
def Obligations.CrcClrZeroesAccumulator : Prop :=
  encode .crcClr = 0x2000 ∧
  (∀ s : State, exec .crcClr s = .next { s with crc := 0x0000, rsps := s.rsps ++ [rspWord 0 0] }) ∧
  (∀ (a : Byte) (s : State), a ≠ 0 →
    step (offer (0x20#8 ++ a) s) = .next { s with rsps := s.rsps ++ [rspWord 1 (0x20#8 ++ a)] })

/-- R96: `CRC.UPD b`; a zero byte leaves a zero accumulator (its corner case, R94 (c)). The numbers are the rule's own
example and rest on R10's parameter set (log entry 6). -/
def Obligations.CrcUpdFeedsOneByte : Prop :=
  (∀ b : Byte, encode (.crcUpd b) = 0x2100 ||| b.zeroExtend 16) ∧
  (∀ (b : Byte) (s : State),
    exec (.crcUpd b) s = .next { s with crc := crcStep s.crc b, rsps := s.rsps ++ [rspWord 0 0] }) ∧
  crcStep 0x0000 0x00 = 0x0000 ∧ crcStep 0x0000 0x41 = 0x58E5 ∧
  crcStep (crcStep 0x58E5 0x30) 0x30 = 0x195B

/-- R97: `CRC.BUF` covers the whole buffer from the initial value; the old accumulator is ignored. -/
def Obligations.CrcBufCoversWholeBuffer : Prop :=
  encode .crcBuf = 0x2200 ∧
  (∀ s : State, exec .crcBuf s =
    .next { s with crc := s.buf.foldl crcStep 0x0000, rsps := s.rsps ++ [rspWord 0 0] }) ∧
  (∀ s : State, s.buf = [] → exec .crcBuf s = .next { s with crc := 0x0000, rsps := s.rsps ++ [rspWord 0 0] }) ∧
  (∀ (a : Byte) (s : State), a ≠ 0 →
    step (offer (0x22#8 ++ a) s) = .next { s with rsps := s.rsps ++ [rspWord 1 (0x22#8 ++ a)] })

/-- R98: `CRC.DIG i`, the digit of 10^(4-i). -/
def Obligations.CrcDigRespondsDigit : Prop :=
  (∀ i : Byte, encode (.crcDig i) = 0x2300 ||| i.zeroExtend 16) ∧
  (∀ (i : Byte) (s : State), i.toNat < 5 → exec (.crcDig i) s =
    .next { s with rsps := s.rsps ++ [rspWord 0 (BitVec.ofNat 16 (0x30 + s.crc.toNat / 10 ^ (4 - i.toNat) % 10))] }) ∧
  (∀ (i : Byte) (s : State), 5 ≤ i.toNat →
    exec (.crcDig i) s = .next { s with rsps := s.rsps ++ [rspWord 4 (0x2300 ||| i.zeroExtend 16)] })

/-- R121: `SEQ.SET n`. -/
def Obligations.SeqSetWritesTag : Prop :=
  (∀ n : Byte, encode (.seqSet n) = 0x3000 ||| n.zeroExtend 16) ∧
  (∀ (n : Byte) (s : State), n.toNat ≤ 99 → ∃ t, exec (.seqSet n) s = .next t ∧ t.seq.toNat = n.toNat ∧
    t = { s with seq := t.seq, rsps := s.rsps ++ [rspWord 0 0] }) ∧
  (∀ (n : Byte) (s : State), 100 ≤ n.toNat →
    exec (.seqSet n) s = .next { s with rsps := s.rsps ++ [rspWord 5 (0x3000 ||| n.zeroExtend 16)] })

/-- R122: `SEQ.INC` advances modulo 100; one hundred of them return `SEQ` to where it started, and no fewer do. -/
def Obligations.SeqIncAdvancesModulo100 : Prop :=
  encode .seqInc = 0x3100 ∧
  (∀ s : State, ∃ t, exec .seqInc s = .next t ∧ t.seq.toNat = (s.seq.toNat + 1) % 100 ∧
    t = { s with seq := t.seq, rsps := s.rsps ++ [rspWord 0 (t.seq.zeroExtend 16)] }) ∧
  (∀ (s : State) (k : Nat), s.seq.toNat ≤ 99 → ∃ t, execAll (List.replicate k .seqInc) s = .next t ∧
    t.seq.toNat = (s.seq.toNat + k) % 100 ∧ (k = 100 → t.seq = s.seq) ∧ (0 < k → k < 100 → t.seq ≠ s.seq)) ∧
  (∀ (a : Byte) (s : State), a ≠ 0 →
    step (offer (0x31#8 ++ a) s) = .next { s with rsps := s.rsps ++ [rspWord 1 (0x31#8 ++ a)] })

/-- R123: `ENC.RUN` with the frame written out digit by digit (R61). -/
def Obligations.EncRunWritesFrame : Prop :=
  encode .encRun = 0x3200 ∧
  (∀ s : State, s.buf.length ≤ 25 → s.seq.toNat ≤ 99 → ∃ (n v : Nat) (body : List Byte) (crc : Half),
    n = s.seq.toNat ∧ body = s.buf ++ [BitVec.ofNat 8 (0x30 + n / 10), BitVec.ofNat 8 (0x30 + n % 10)] ∧
    crc = body.foldl crcStep 0x0000 ∧ v = crc.toNat ∧
    exec .encRun s = .next { s with
      buf := body ++ [BitVec.ofNat 8 (0x30 + v / 10000), BitVec.ofNat 8 (0x30 + v / 1000 % 10),
        BitVec.ofNat 8 (0x30 + v / 100 % 10), BitVec.ofNat 8 (0x30 + v / 10 % 10), BitVec.ofNat 8 (0x30 + v % 10)]
      crc := crc
      rsps := s.rsps ++ [rspWord 0 (BitVec.ofNat 16 (s.buf.length + 7))] }) ∧
  (∀ s : State, 25 < s.buf.length →
    exec .encRun s = .next { s with rsps := s.rsps ++ [rspWord 6 0x3200] }) ∧
  (∀ (a : Byte) (s : State), a ≠ 0 →
    step (offer (0x32#8 ++ a) s) = .next { s with rsps := s.rsps ++ [rspWord 1 (0x32#8 ++ a)] })

/-- R131: `DEC.RUN` by the rule's indices, for every buffer of 0 to 32 bytes (R130 (a): never refused for content). -/
def Obligations.DecRunReportsVerdict : Prop :=
  encode .decRun = 0x4000 ∧
  (∀ s : State, s.buf.length < 7 → exec .decRun s =
    .next { s with status := 0x0004, clen := 0, tag := 0x0000, dseq := 127, rsps := s.rsps ++ [rspWord 0 0x0004] }) ∧
  (∀ s : State, 7 ≤ s.buf.length → s.buf.length ≤ 32 →
    ∃ (n : Nat) (t0 t1 : Byte) (ck : List Byte) (v : Half) (valid tagnum : Bool) (status : Half) (t : State),
      n = s.buf.length ∧ s.buf[n - 7]? = some t0 ∧ s.buf[n - 6]? = some t1 ∧ ck = s.buf.drop (n - 5) ∧
      v = (s.buf.take (n - 5)).foldl crcStep 0x0000 ∧ (valid = true ↔ dec5 v = ck) ∧
      (tagnum = true ↔ (0x30 ≤ t0.toNat ∧ t0.toNat ≤ 0x39) ∧ (0x30 ≤ t1.toNat ∧ t1.toNat ≤ 0x39)) ∧
      status.toNat = valid.toNat + 2 * tagnum.toNat ∧
      exec .decRun s = .next t ∧ t.status = status ∧ t.clen.toNat = n - 7 ∧ t.tag = t0 ++ t1 ∧
      t.dseq.toNat = (if tagnum then 10 * (t0.toNat - 0x30) + (t1.toNat - 0x30) else 127) ∧ t.crc = v ∧
      t = { s with status := t.status, clen := t.clen, tag := t.tag, dseq := t.dseq, crc := t.crc,
                   rsps := s.rsps ++ [rspWord 0 status] }) ∧
  (∀ (a : Byte) (s : State), a ≠ 0 →
    step (offer (0x40#8 ++ a) s) = .next { s with rsps := s.rsps ++ [rspWord 1 (0x40#8 ++ a)] })

/-! ### Frames and whole-machine rules -/

/-- R45: `RD`, `BUF.RD` and `CRC.DIG` change no state, and repeated they respond the same; every byte reads as
before. -/
def Obligations.ReadsHaveNoSideEffect : Prop :=
  ∀ (k : Byte) (i : Instr) (s : State), i ∈ [Instr.rd k, .bufRd k, .crcDig k] →
    ∃ t r u, exec i s = .next t ∧ t = { s with rsps := s.rsps ++ [r] } ∧ (∀ a : Nat, readByte t a = readByte s a) ∧
      exec i t = .next u ∧ u = { t with rsps := t.rsps ++ [r] }

/-- The frame of the commands that store nothing to the buffer: `CRC.CLR`, `CRC.UPD` and `CRC.BUF` write `CRC`
alone, `SEQ.SET` and `SEQ.INC` write `SEQ` alone, `DEC.RUN` writes `STATUS`, `CLEN`, `TAG`, `DSEQ` and `CRC`. -/
def Obligations.RegisterCommandsFrame : Prop :=
  (∀ (b : Byte) (i : Instr) (s t : State), i ∈ [Instr.crcClr, .crcUpd b, .crcBuf] → exec i s = .next t →
    t.seq = s.seq ∧ t.status = s.status ∧ t.clen = s.clen ∧ t.tag = s.tag ∧ t.dseq = s.dseq ∧
    t.hostq = s.hostq ∧ lenReg t = lenReg s ∧ ∀ a : Nat, readByte t a = readByte s a) ∧
  (∀ (n : Byte) (i : Instr) (s t : State), i ∈ [Instr.seqSet n, .seqInc] → exec i s = .next t →
    t.crc = s.crc ∧ t.status = s.status ∧ t.clen = s.clen ∧ t.tag = s.tag ∧ t.dseq = s.dseq ∧
    t.hostq = s.hostq ∧ lenReg t = lenReg s ∧ ∀ a : Nat, readByte t a = readByte s a) ∧
  (∀ s t : State, exec .decRun s = .next t →
    t.seq = s.seq ∧ t.hostq = s.hostq ∧ lenReg t = lenReg s ∧ (s.buf.length < 7 → t.crc = s.crc) ∧
    ∀ a : Nat, readByte t a = readByte s a)

/-- The frame of the two commands that store: `BUF.PUSH` stores one byte at `appendIndex`, `ENC.RUN` seven bytes
from it on and writes `CRC`; a refused form stores nothing. -/
def Obligations.StoringCommandsFrame : Prop :=
  (∀ (b : Byte) (s t : State), exec (.bufPush b) s = .next t →
    t.seq = s.seq ∧ t.crc = s.crc ∧ t.status = s.status ∧ t.clen = s.clen ∧ t.tag = s.tag ∧ t.dseq = s.dseq ∧
    t.hostq = s.hostq ∧ (∀ a : Nat, a ≠ appendIndex s → readByte t a = readByte s a) ∧
    (32 ≤ s.buf.length → ∀ a : Nat, readByte t a = readByte s a) ∧
    (s.buf.length < 32 → readByte t (appendIndex s) = some b)) ∧
  (∀ s t : State, exec .encRun s = .next t →
    t.seq = s.seq ∧ t.status = s.status ∧ t.clen = s.clen ∧ t.tag = s.tag ∧ t.dseq = s.dseq ∧ t.hostq = s.hostq ∧
    (∀ a : Nat, a < appendIndex s ∨ appendIndex s + 7 ≤ a → readByte t a = readByte s a) ∧
    (25 < s.buf.length → t.crc = s.crc ∧ ∀ a : Nat, readByte t a = readByte s a)) ∧
  (∀ s t : State, exec .bufClr s = .next t →
    t.seq = s.seq ∧ t.crc = s.crc ∧ t.status = s.status ∧ t.clen = s.clen ∧ t.tag = s.tag ∧ t.dseq = s.dseq ∧
    t.hostq = s.hostq ∧ ∀ a : Nat, readByte t a = none)

/-- Each of the state's items is written only by the commands listed for it (R23 to R30): over all 65536 words, an
item that changed names the words that can have changed it. -/
def Obligations.OnlyListedCommandsWrite : Prop :=
  ∀ (w : CmdWord) (s t : State), step (offer w s) = .next t →
    (t.buf ≠ s.buf → w = 0x1000 ∨ w.toNat / 256 = 0x11 ∨ w = 0x3200) ∧
    (t.seq ≠ s.seq → w.toNat / 256 = 0x30 ∨ w = 0x3100) ∧
    (t.crc ≠ s.crc → w = 0x2000 ∨ w.toNat / 256 = 0x21 ∨ w = 0x2200 ∨ w = 0x3200 ∨ w = 0x4000) ∧
    (t.status ≠ s.status ∨ t.clen ≠ s.clen ∨ t.tag ≠ s.tag ∨ t.dseq ≠ s.dseq → w = 0x4000)

/-- R23: no command changes a byte below `LEN`; a byte that reads before a command reads the same after it, unless
the command is `BUF.CLR`, after which nothing reads. -/
def Obligations.NoCommandChangesAStoredByte : Prop :=
  ∀ (w : CmdWord) (s t : State) (a : Nat) (b : Byte), step (offer w s) = .next t → readByte s a = some b →
    (w ≠ 0x1000 → readByte t a = some b) ∧ (w = 0x1000 → readByte t a = none)

/-- R141: a refused command changes no state, responds with its code and the word refused, leaves the events to come
as they were, and no later command behaves differently because of it. -/
def Obligations.RefusalChangesNothing : Prop :=
  ∀ (w : CmdWord) (s t : State) (r : RspWord), step (offer w s) = .next t → t.rsps = s.rsps ++ [r] →
    rspCode r ≠ 0 →
    SameUnit s t ∧ t.hostq = s.hostq ∧ rspData r = w ∧ (s.buf.length ≤ 32 → rspCode r = refusalTable w s) ∧
    (∀ w' : CmdWord, ∃ u u' r', step (offer w' s) = .next u ∧ step (offer w' t) = .next u' ∧ SameUnit u u' ∧
      u.rsps = s.rsps ++ [r'] ∧ u'.rsps = t.rsps ++ [r'])

/-- R142 (with the priority of R143): the code of every word in every state of at most 32 bytes is the table's. -/
def Obligations.ResponseCodesAreTheTables : Prop :=
  ∀ (w : CmdWord) (s : State), s.buf.length ≤ 32 → ∃ t r, step (offer w s) = .next t ∧ t.rsps = s.rsps ++ [r] ∧
    rspCode r = refusalTable w s ∧ (rspCode r ≠ 0 → rspData r = w) ∧ (rspCode r).toNat ≤ 6 ∧
    (rspCode r = 0 → ∃ i, decode w = .command i ∧ rspData r = executedData i s t)

/-- R143: decode comes first: `ENC.RUN` with a non-zero operand and `LEN = 30` is `ILLEGAL_OP`, not `LENGTH`. -/
def Obligations.DecodeRefusalComesFirst : Prop :=
  ∀ (a : Byte) (s : State), a ≠ 0 → s.buf.length = 30 →
    step (offer (0x32#8 ++ a) s) = .next { s with rsps := s.rsps ++ [rspWord 1 (0x32#8 ++ a)] } ∧
    step (offer 0x3200 s) = .next { s with rsps := s.rsps ++ [rspWord 6 0x3200] }

/-- R164: `CRC.BUF`, `ENC.RUN` and a non-short `DEC.RUN` overwrite `CRC` without reading it; `CRC.CLR` and `CRC.UPD`
disturb `CRC` alone. -/
def Obligations.SharedCrcIsOverwrittenUnread : Prop :=
  (∀ (i : Instr) (s t t' : State) (v : Half),
    (i = .crcBuf ∨ (i = .encRun ∧ s.buf.length ≤ 25) ∨ (i = .decRun ∧ 7 ≤ s.buf.length)) →
    exec i s = .next t → exec i { s with crc := v } = .next t' → t' = t) ∧
  (∀ (i : Instr) (b : Byte) (s t : State), (i = .crcClr ∨ i = .crcUpd b) → exec i s = .next t →
    t = { s with crc := t.crc, rsps := t.rsps })

/-- R165: the decode results describe the buffer as it was when `DEC.RUN` last ran: no run of other commands
changes them; after reset they read as invalid, no tag. -/
def Obligations.DecodeResultsStayUntilDecRun : Prop :=
  (∀ (is : List Instr) (s t : State), .decRun ∉ is → execAll is s = .next t →
    t.status = s.status ∧ t.clen = s.clen ∧ t.tag = s.tag ∧ t.dseq = s.dseq) ∧
  State.reset.status = 0 ∧ State.reset.dseq = 127 ∧
  (∃ s t : State, execAll [.decRun, .bufClr] s = .next t ∧ t.status = 0x0003 ∧ t.buf = [])

/-- R167: `ENC.RUN` run twice frames the first frame while it fits, and is refused when it does not; `DEC.RUN` twice
leaves what once left and responds the same; `SEQ.INC` twice is not `SEQ.INC` once. -/
def Obligations.RerunningCommands : Prop :=
  (∀ s t : State, s.buf.length ≤ 18 → execAll [.encRun, .encRun] s = .next t →
    t.buf = encodeFrame (encodeFrame s.buf s.seq.toNat) s.seq.toNat ∧ t.buf.length = s.buf.length + 14) ∧
  (∀ s t : State, 18 < s.buf.length → s.buf.length ≤ 25 → execAll [.encRun, .encRun] s = .next t →
    t.buf = encodeFrame s.buf s.seq.toNat ∧
    ∃ r, t.rsps = s.rsps ++ [r, rspWord 6 0x3200]) ∧
  (∀ s : State, ∃ t r, exec .decRun s = .next t ∧ t.rsps = s.rsps ++ [r] ∧
    exec .decRun t = .next { t with rsps := t.rsps ++ [r] }) ∧
  (∀ s t u : State, exec .seqInc s = .next t → exec .seqInc t = .next u → u.seq ≠ t.seq)

/-! ### The codec -/

/-- R64: `dec2` of 0..99 is two ASCII digits, zero-padded, tens first. -/
def Obligations.Dec2IsTwoDigits : Prop :=
  (∀ n : Nat, n ≤ 99 → dec2 n = [BitVec.ofNat 8 (0x30 + n / 10), BitVec.ofNat 8 (0x30 + n % 10)]) ∧
  dec2 0 = [0x30, 0x30] ∧ dec2 7 = [0x30, 0x37] ∧ dec2 42 = [0x34, 0x32] ∧ dec2 99 = [0x39, 0x39] ∧
  dec2 (100 % 100) = dec2 0

/-- R65: `dec5` is five ASCII digits by the rule's formula, injective, and its image is the strings "00000" to
"65535". -/
def Obligations.Dec5IsFiveDigitsInjective : Prop :=
  (∀ (v : Half) (k : Nat), k < 5 →
    (dec5 v)[4 - k]? = some (BitVec.ofNat 8 (0x30 + v.toNat / 10 ^ k % 10))) ∧
  (∀ v : Half, (dec5 v).length = 5) ∧
  (∀ v w : Half, dec5 v = dec5 w → v = w) ∧
  (∀ s : List Byte, (∃ v, dec5 v = s) ↔ s.length = 5 ∧ (∀ b ∈ s, 0x30 ≤ b.toNat ∧ b.toNat ≤ 0x39) ∧
    s.foldl (fun n b => 10 * n + (b.toNat - 0x30)) 0 ≤ 65535)

/-- R66: two digits spell their number, and `dec2` of it is the two bytes again; anything else spells nothing, and
the decoder then reports `TAGNUM = 0`, `DSEQ = 127` and still the raw bytes. -/
def Obligations.TagReadsBack : Prop :=
  (∀ t0 t1 : Byte, ((0x30 ≤ t0.toNat ∧ t0.toNat ≤ 0x39) ∧ (0x30 ≤ t1.toNat ∧ t1.toNat ≤ 0x39)) →
    ∃ n, tagNumber [t0, t1] = some n ∧ n = 10 * (t0.toNat - 0x30) + (t1.toNat - 0x30) ∧ n ≤ 99 ∧ dec2 n = [t0, t1]) ∧
  (∀ n : Nat, n ≤ 99 → tagNumber (dec2 n) = some n) ∧
  (∀ t0 t1 : Byte, notNumeric t0 t1 → tagNumber [t0, t1] = none ∧
    ∀ (s : State) (pre ck : List Byte), s.buf = pre ++ [t0, t1] ++ ck → ck.length = 5 →
      ∃ t, exec .decRun s = .next t ∧ tagnumFlag t.status = false ∧ t.dseq = 127 ∧ t.tag = t0 ++ t1)

/-- The source's round trip: `decode(encode(chunk, tag)) == (chunk, tag, valid=true)`, for every chunk and tag of the
domain of `encode` (R62, R63). -/
def Obligations.DecodeOfEncodedFrame : Prop :=
  ∀ (c : List Byte) (n : Nat), c.length ≤ 25 → n ≤ 99 →
    decodeFrame (encodeFrame c n) = { chunk := c, tag := dec2 n, valid := true } ∧
    tagNumber (decodeFrame (encodeFrame c n)).tag = some n ∧
    7 ≤ (encodeFrame c n).length ∧ (encodeFrame c n).length ≤ 32

/-- R124 (a) to (e): what `ENC.RUN` leaves, and that `DEC.RUN` straight after it validates and reads the tag and chunk
back. -/
def Obligations.EncoderOutputValidates : Prop :=
  (∀ s : State, s.buf.length ≤ 25 → s.seq.toNat ≤ 99 → ∃ t u : State,
    exec .encRun s = .next t ∧ exec .decRun t = .next u ∧
    t.buf.length = s.buf.length + 7 ∧ 7 ≤ t.buf.length ∧ t.buf.length ≤ 32 ∧
    t.buf.take s.buf.length = s.buf ∧
    (t.buf.drop s.buf.length).take 2 = dec2 s.seq.toNat ∧ tagNumber (dec2 s.seq.toNat) = some s.seq.toNat ∧
    t.buf.drop (s.buf.length + 2) = dec5 (crc16 (t.buf.take (s.buf.length + 2))) ∧
    validFlag u.status = true ∧ tagnumFlag u.status = true ∧ shortFlag u.status = false ∧
    u.clen.toNat = s.buf.length ∧ u.dseq = s.seq ∧ u.crc = t.crc ∧ u.buf = t.buf) ∧
  (∀ s s' t t' : State, s'.buf = s.buf → s'.seq = s.seq → exec .encRun s = .next t → exec .encRun s' = .next t' →
    t'.buf = t.buf)

/-- R135: a matching checksum over a tag that is no number gives `VALID = 1`, `TAGNUM = 0`, `DSEQ = 127`; no encoder
output has such a tag. -/
def Obligations.ValidWithoutNumericTag : Prop :=
  (∀ (s : State) (c : List Byte) (t0 t1 : Byte), c.length ≤ 25 → notNumeric t0 t1 →
    s.buf = c ++ [t0, t1] ++ dec5 (crc16 (c ++ [t0, t1])) →
    ∃ t, exec .decRun s = .next t ∧ t.status = 0x0001 ∧ t.dseq = 127) ∧
  (∀ (c : List Byte) (n : Nat), n ≤ 99 → ∃ t0 t1, frameTag (encodeFrame c n) = [t0, t1] ∧ ¬ notNumeric t0 t1)

/-- R136 (a) and (b): from a frame that validates, flipping any single bit of the checksum, the tag or the chunk makes
`DEC.RUN` report `VALID = 0`. -/
def Obligations.SingleBitFlipIsDetected : Prop :=
  ∀ (s t : State) (a k : Nat), 7 ≤ s.buf.length → s.buf.length ≤ 32 → exec .decRun s = .next t →
    validFlag t.status = true → a < s.buf.length → k < 8 →
    ∃ u, exec .decRun { s with buf := flipBit s.buf a k } = .next u ∧ validFlag u.status = false

/-- R94 (c): leading zero bytes are invisible to the checksum, so a zero byte put in front of a frame that still fits
leaves the verdict and the tag as they were and the chunk one byte longer. -/
def Obligations.LeadingZeroIsInvisible : Prop :=
  (∀ s : List Byte, crc16 (0x00 :: s) = crc16 s) ∧
  (∀ (s t : State), 7 ≤ s.buf.length → s.buf.length < 32 → exec .decRun s = .next t →
    ∃ u, exec .decRun { s with buf := 0x00 :: s.buf } = .next u ∧ u.status = t.status ∧ u.tag = t.tag ∧
      u.dseq = t.dseq ∧ u.crc = t.crc ∧ u.clen.toNat = t.clen.toNat + 1)

/-- R94 (d): the CRC is linear over bytewise XOR of sequences of equal length. -/
def Obligations.CrcIsLinear : Prop :=
  ∀ s t : List Byte, s.length = t.length → crc16 (List.zipWith (· ^^^ ·) s t) = crc16 s ^^^ crc16 t

/-- R93 (a): the CRC is the remainder of `s(x) * x^16` divided by `x^16 + x^12 + x^5 + 1` over GF(2), the generator of
R10's parameter set (log entry 6). -/
def Obligations.CrcIsPolynomialRemainder : Prop :=
  ∀ s : List Byte, bitsPoly (crc16 s) =
    (messagePoly s * Polynomial.X ^ 16) %ₘ
      (Polynomial.X ^ 16 + Polynomial.X ^ 12 + Polynomial.X ^ 5 + 1 : Polynomial (ZMod 2))

/-- R93 (b) and (c): the shift-register view, bit 7 of the byte first, and the table view. -/
def Obligations.CrcSerialAndTableViews : Prop :=
  (∀ (c : Half) (b : Byte),
    crcStep c b = [7, 6, 5, 4, 3, 2, 1, 0].foldl (fun reg k => serialBit reg (b.getLsbD k)) c) ∧
  (∀ (c : Half) (b : Byte), crcStep c b = (c <<< 8) ^^^ crcStep 0 ((c >>> 8).truncate 8 ^^^ b)) ∧
  crcStep 0 0x41 = 0x58E5 ∧ crcStep 0 0x01 = 0x1021 ∧ crcStep 0 0xFF = 0x1EF0

/-! ### The pseudo-commands and the environment -/

/-- R77: the words each pseudo-command expands to, and what it does, from any state. -/
def Obligations.PseudoCommandsDoAsR77Says : Prop :=
  (∀ bs : List Byte, (expand (.load bs)).map encode = 0x1000 :: bs.map fun b => 0x11#8 ++ b) ∧
  (∀ (c : List Byte) (n : Byte), (expand (.encode c n)).map encode =
    (expand (.load c)).map encode ++ [0x30#8 ++ n, 0x3200]) ∧
  (∀ f : List Byte, (expand (.decode f)).map encode = (expand (.load f)).map encode ++ [0x4000]) ∧
  (∀ bs : List Byte, (expand (.crc16 bs)).map encode = 0x2000 :: bs.map fun b => 0x21#8 ++ b) ∧
  (∀ n : Nat, (expand (.dump n)).map encode = 0x0101 :: (List.range n).map fun i => 0x12#8 ++ BitVec.ofNat 8 i) ∧
  (∀ (bs : List Byte) (s : State), bs.length ≤ 32 → ∃ t, execAll (expand (.load bs)) s = .next t ∧
    t = { s with buf := bs, rsps := t.rsps }) ∧
  (∀ (c : List Byte) (n : Byte) (s : State), c.length ≤ 25 → n.toNat ≤ 99 →
    ∃ t, execAll (expand (.encode c n)) s = .next t ∧ t.buf = encodeFrame c n.toNat ∧ t.seq.toNat = n.toNat ∧
      t.status = s.status ∧ t.clen = s.clen ∧ t.tag = s.tag ∧ t.dseq = s.dseq) ∧
  (∀ (f : List Byte) (s : State), f.length ≤ 32 → ∃ t u, execAll (expand (.decode f)) s = .next t ∧
    exec .decRun { s with buf := f } = .next u ∧ SameUnit u t) ∧
  (∀ (bs : List Byte) (s : State), ∃ t, execAll (expand (.crc16 bs)) s = .next t ∧
    t = { s with crc := crc16 bs, rsps := t.rsps }) ∧
  (∀ s : State, s.buf.length ≤ 32 → execAll (expand (.dump s.buf.length)) s = .next { s with
    rsps := s.rsps ++ rspWord 0 (BitVec.ofNat 16 s.buf.length) :: s.buf.map fun b => rspWord 0 (b.zeroExtend 16) })

/-- R99: the byte stream and the whole buffer agree on `crc16`, and so does the encoder. -/
def Obligations.ThreeWaysToTheChecksumAgree : Prop :=
  (∀ (bs : List Byte) (s : State), bs.length ≤ 32 → ∃ t u,
    execAll (.crcClr :: bs.map .crcUpd) s = .next t ∧ execAll (expand (.load bs) ++ [.crcBuf]) s = .next u ∧
    t.crc = crc16 bs ∧ u.crc = crc16 bs) ∧
  (∀ (c : List Byte) (n : Byte) (s : State), c.length ≤ 25 → n.toNat ≤ 99 → ∃ t u,
    execAll (expand (.encode c n)) s = .next t ∧ execAll (expand (.crc16 (c ++ dec2 n.toNat))) s = .next u ∧
    t.crc = crc16 (c ++ dec2 n.toNat) ∧ u.crc = t.crc)

/-- R183: chunking keeps file order and content; every chunk but the last has 25 bytes, the last 1 to 25. -/
def Obligations.ChunkingKeepsTheFile : Prop :=
  (∀ file : List Byte, (chunksOf file).flatten = file) ∧
  (∀ file c, c ∈ (chunksOf file).dropLast → c.length = 25) ∧
  (∀ file c, (chunksOf file).getLast? = some c → 1 ≤ c.length ∧ c.length ≤ 25) ∧
  (chunksOf []) = []

/-- The idempotent acknowledgment of R193 on the environment's functions (log entry 11): a valid new frame delivered
twice in a row is acknowledged good both times and appended once. A Data Frame is not short (R60, and no state with a
matching checksum is, R31), and its tag is numeric; for one that is
not, the host's reaction is open (log entry 18), and the same holds where it is to accept. -/
def Obligations.DuplicateFrameAppendedOnce : Prop :=
  ∀ (h : HostParams) (r : Receiver) (s : State), r.finalized = false → isEndMarker h s = false →
    shortFlag s.status = false → validFlag s.status = true → (tagnumFlag s.status = true ∨ h.nonNumericTagVerdict = .accept) →
    r.lastAcceptedTag ≠ some s.tag →
    ∃ r', receiverStep h r s = (r', some ackGood) ∧ r'.transferBuffer = r.transferBuffer ++ [decodedChunk s] ∧
      receiverStep h r' s = (r', some ackGood)

/-- The tag wrap of R192 and R186 (log entry 11): the chunk after the one tagged `SEQ`, encoded after `SEQ.INC` and
received intact, is never taken for a duplicate of it, across the wrap from 99 to 0 too. -/
def Obligations.NextChunkIsNoDuplicate : Prop :=
  ∀ (h : HostParams) (r : Receiver) (c : List Byte) (s t u v : State), r.finalized = false → s.seq.toNat ≤ 99 →
    c.length ≤ 25 → r.lastAcceptedTag = some (tagWord (dec2 s.seq.toNat)) →
    execAll (.seqInc :: loadCommands c ++ [.encRun]) s = .next t →
    execAll (expand (.decode t.buf)) u = .next v → isEndMarker h v = false →
    receiverStep h r v =
      ({ r with transferBuffer := r.transferBuffer ++ [c], lastAcceptedTag := some v.tag }, some ackGood)

/-! ### The environment as a whole (R181, R188, R193; log entries 11, 17, 18, 19, 20) -/

/-- R188: what a listening receiver does in the four cases, in their order, and that a finalized one does nothing and
transmits nothing; R189: what it outputs. A raw marker has no tag (log entry 17), and a short frame has none
(log entry 20). -/
def Obligations.ReceiverCasesOfR188 : Prop :=
  (∀ (h : HostParams) (r : Receiver) (s : State), r.finalized = false →
    (h.endMarkerPayload = .framed → decodedChunk s = h.endMarker →
      (shortFlag s.status = true ∨ r.lastAcceptedTag ≠ some s.tag) →
      receiverStep h r s = ({ r with finalized := true }, some h.finalAck)) ∧
    (h.endMarkerPayload = .raw → s.buf = h.endMarker →
      receiverStep h r s = ({ r with finalized := true }, some h.finalAck)) ∧
    (isEndMarker h s = false → shortFlag s.status = false → r.lastAcceptedTag = some s.tag →
      receiverStep h r s = (r, some ackGood)) ∧
    (isEndMarker h s = false → r.lastAcceptedTag ≠ some s.tag → validFlag s.status = true →
      tagnumFlag s.status = true → receiverStep h r s =
        ({ r with transferBuffer := r.transferBuffer ++ [s.buf.take s.clen.toNat], lastAcceptedTag := some s.tag },
          some ackGood)) ∧
    (isEndMarker h s = false → (shortFlag s.status = true ∨ r.lastAcceptedTag ≠ some s.tag) →
      validFlag s.status = false → receiverStep h r s = (r, some ackBad))) ∧
  (∀ (h : HostParams) (r : Receiver) (s : State), r.finalized = true → receiverStep h r s = (r, none)) ∧
  (∀ r : Receiver, r.output = if r.finalized = true then some r.transferBuffer.flatten else none)

/-- The retry convergence of R193: however many attempts fail, because the frame or its acknowledgment is lost or the
acknowledgment arrives as something else, after the one that succeeds the sender has advanced exactly once: it has the
next chunk, `SEQ` is one further modulo 100, every frame it transmitted is the same one, and the receiver has appended
the chunk exactly once and answered every frame it got with `ACK_GOOD`. -/
def Obligations.RetryConvergence : Prop :=
  ∀ (h : HostParams) (x : Session) (c : List Byte) (rest : List (List Byte)) (n : Nat)
    (lost : List (LinkAction × LinkAction)),
    x.sender = ⟨.sendingChunk, c :: rest⟩ → c.length ≤ 25 → x.senderUnit.seq.toNat = n → n ≤ 99 →
    x.receiver.finalized = false → x.receiver.lastAcceptedTag ≠ some (tagWord (dec2 n)) → ¬ chunkIsMarker h c n →
    (∀ l ∈ lost, l.1 = .drop ∨ (l.1 = .deliver ∧ answerLost ackGood l.2)) →
    ∃ y, sessionRun h ((lost ++ [(LinkAction.deliver, LinkAction.deliver)]).flatMap attempt) x = y ∧
      y.sender = ⟨if rest = [] then .allSent else .sendingChunk, rest⟩ ∧
      y.senderUnit.seq.toNat = (n + 1) % 100 ∧
      y.receiver = { x.receiver with transferBuffer := x.receiver.transferBuffer ++ [c],
                                     lastAcceptedTag := some (tagWord (dec2 n)) } ∧
      y.sent = x.sent ++ List.replicate (lost.length + 1) (encodeFrame c n) ∧
      y.answered = x.answered ++ List.replicate ((lost.filter fun l => l.1 = .deliver).length + 1) ackGood

/-- The end-to-end scenario A of R193, for every file over a link that delivers: the receiver outputs the file byte for
byte, the chunks carry the tags 0, 1, 2, ... modulo 100, each is acknowledged once, and both ends stop. A file of 60
bytes makes chunks of 25, 25 and 10 bytes with tags "00", "01", "02"; a missing file is an empty one (R190). The
premise that no chunk is the marker is the source's own wish (C4). -/
def Obligations.EndToEndReconstructsFile : Prop :=
  (∀ (h : HostParams) (file : Option (List Byte)) (chunks : List (List Byte)),
    hostParamsWf h = true → chunks = chunksOf (file.getD []) →
    (∀ i c, chunks[i]? = some c → ¬ chunkIsMarker h c (i % 100)) →
    ∃ y, sessionRun h (List.replicate (3 * chunks.length + 4) (.deliver, .deliver)) (Session.start file) = y ∧
      y.sender = ⟨.done, []⟩ ∧ y.receiver.finalized = true ∧ y.receiver.transferBuffer = chunks ∧
      y.receiver.output = some (file.getD []) ∧
      y.sent = (chunks.mapIdx fun i c => encodeFrame c (i % 100)) ++ [markerFrame h (chunks.length % 100)] ∧
      y.answered = List.replicate chunks.length ackGood ++ [h.finalAck]) ∧
  (∀ file : List Byte, file.length = 60 → (chunksOf file).map List.length = [25, 25, 10] ∧
    ((chunksOf file).mapIdx fun i c => frameTag (encodeFrame c (i % 100))) = [[0x30, 0x30], [0x30, 0x31], [0x30, 0x32]])

/-- The termination scenario of R193: once all chunks are acknowledged the sender transmits `END_MARKER` again and again
while it is lost; the receiver answers the first one that arrives with `FINAL_ACK` and stops listening; the sender stops
on it. From then on, whatever the link does, neither end transmits or changes. -/
def Obligations.TerminationHandshake : Prop :=
  ∀ (h : HostParams) (x : Session) (n : Nat) (lost : List (LinkAction × LinkAction)),
    hostParamsWf h = true → x.sender.phase = .allSent → x.senderUnit.seq.toNat = n → n ≤ 99 →
    x.receiver.finalized = false → x.receiver.lastAcceptedTag ≠ some (tagWord (dec2 n)) → (∀ l ∈ lost, l.1 = .drop) →
    ∃ y, sessionRun h ((.drop, .drop) :: (lost ++ [(LinkAction.deliver, LinkAction.deliver)]).flatMap endAttempt) x = y ∧
      y.sender = { x.sender with phase := .done } ∧ y.receiver = { x.receiver with finalized := true } ∧
      y.sent = x.sent ++ List.replicate (lost.length + 1) (markerFrame h n) ∧
      y.answered = x.answered ++ [h.finalAck] ∧
      ∀ links, ∃ z, sessionRun h links y = z ∧ z.sender = y.sender ∧ z.receiver = y.receiver ∧ z.sent = y.sent ∧
        z.answered = y.answered

/-- `FINAL_ACK` "exactly once" (R193): in every session from the start, whatever the link drops, alters or makes up,
the receiver has transmitted `FINAL_ACK` once if it is finalized and never otherwise, and a finalized one transmits
nothing more. -/
def Obligations.FinalAckExactlyOnce : Prop :=
  (∀ (h : HostParams) (file : Option (List Byte)) (links : List (LinkAction × LinkAction)), hostParamsWf h = true →
    (sessionRun h links (Session.start file)).answered.count h.finalAck =
      if (sessionRun h links (Session.start file)).receiver.finalized = true then 1 else 0) ∧
  (∀ (h : HostParams) (x : Session) (links : List (LinkAction × LinkAction)), x.receiver.finalized = true →
    (sessionRun h links x).receiver = x.receiver ∧ (sessionRun h links x).answered = x.answered ∧
    (sessionRun h links x).receiverUnit = x.receiverUnit)

/-- Over a link that loses frames, and loses answers or makes anything of them, at every moment the Transfer Buffer is a
beginning of the file's chunks, it is all of them once the receiver is finalized, and when the sender is done the
receiver has output the file (R193; R190: "no partial-success output"). -/
def Obligations.LossyTransferKeepsTheFile : Prop :=
  ∀ (h : HostParams) (file : Option (List Byte)) (chunks : List (List Byte)) (links : List (LinkAction × LinkAction)),
    hostParamsWf h = true → chunks = chunksOf (file.getD []) →
    (∀ i c, chunks[i]? = some c → ¬ chunkIsMarker h c (i % 100)) →
    (∀ l ∈ links, l.1 = .deliver ∨ l.1 = .drop) →
    ∃ y, sessionRun h links (Session.start file) = y ∧ y.receiver.transferBuffer <+: chunks ∧
      (y.receiver.finalized = true → y.receiver.transferBuffer = chunks ∧ y.receiver.output = some (file.getD [])) ∧
      (y.receiver.finalized = false → y.receiver.output = none) ∧
      (y.sender.phase = .done → y.receiver.finalized = true)

/-- R181: to send, the host reads the frame out with `RD LEN` and then `BUF.RD 0 .. LEN-1`, which gives the buffer's
bytes and changes nothing in the unit; on receipt `BUF.CLR` and one `BUF.PUSH` per byte lay the frame in the other
unit's buffer, where `DEC.RUN` finds it. What a `send` leaves for `poll` is nothing or one frame of at most 32 bytes,
`is_available` says which, and a `poll` takes it (log entry 19). -/
def Obligations.HostCarriesFramesByCommands : Prop :=
  (∀ u : State, u.buf.length ≤ 32 → (readOut u).map encode =
      0x0101 :: (List.range u.buf.length).map (fun i => 0x12#8 ++ BitVec.ofNat 8 i) ∧
    ∃ v, handOver u .buffer = (v, some u.buf) ∧ SameUnit u v ∧ v.hostq = u.hostq ∧
      v.rsps = u.rsps ++ rspWord 0 (BitVec.ofNat 16 u.buf.length) :: u.buf.map fun b => rspWord 0 (b.zeroExtend 16)) ∧
  (∀ (h : HostParams) (r : Receiver) (u : State) (frame : List Byte), r.finalized = false → frame.length ≤ 32 →
    ∃ v w, receive h r u frame = ((receiverStep h r v).1, v, (receiverStep h r v).2) ∧ v.buf = frame ∧
      exec .decRun { u with buf := frame } = .next w ∧ SameUnit w v) ∧
  (∀ (a : LinkAction) (f g : List Byte), (poll (linkGives a f)).1 = some g → g.length ≤ 32) ∧
  (∀ f : List Byte, f.length ≤ 32 → (poll (linkGives .deliver f)).1 = some f ∧ (poll (linkGives .drop f)).1 = none) ∧
  (∀ m : Mailbox, (isAvailable m = true ↔ ∃ g, (poll m).1 = some g) ∧ isAvailable (poll m).2 = false)
end

