-- ==== Sys2Proof/Laws/State.lean ====
section
/-! SUPPORT. One lemma per field per named update of `State`, true by `rfl`, and the values of `params`. -/

namespace Sys2Proof.Machine

variable (s : State)

@[simp] theorem State.withBuf_buf (m : Memory) : (s.withBuf m).buf = m := rfl
@[simp] theorem State.withBuf_seq (m : Memory) : (s.withBuf m).seq = s.seq := rfl
@[simp] theorem State.withBuf_crc (m : Memory) : (s.withBuf m).crc = s.crc := rfl
@[simp] theorem State.withBuf_status (m : Memory) : (s.withBuf m).status = s.status := rfl
@[simp] theorem State.withBuf_clen (m : Memory) : (s.withBuf m).clen = s.clen := rfl
@[simp] theorem State.withBuf_tag (m : Memory) : (s.withBuf m).tag = s.tag := rfl
@[simp] theorem State.withBuf_dseq (m : Memory) : (s.withBuf m).dseq = s.dseq := rfl
@[simp] theorem State.withBuf_hostq (m : Memory) : (s.withBuf m).hostq = s.hostq := rfl
@[simp] theorem State.withBuf_rsps (m : Memory) : (s.withBuf m).rsps = s.rsps := rfl

@[simp] theorem State.withSeq_buf (n : BitVec 7) : (s.withSeq n).buf = s.buf := rfl
@[simp] theorem State.withSeq_seq (n : BitVec 7) : (s.withSeq n).seq = n := rfl
@[simp] theorem State.withSeq_crc (n : BitVec 7) : (s.withSeq n).crc = s.crc := rfl
@[simp] theorem State.withSeq_status (n : BitVec 7) : (s.withSeq n).status = s.status := rfl
@[simp] theorem State.withSeq_clen (n : BitVec 7) : (s.withSeq n).clen = s.clen := rfl
@[simp] theorem State.withSeq_tag (n : BitVec 7) : (s.withSeq n).tag = s.tag := rfl
@[simp] theorem State.withSeq_dseq (n : BitVec 7) : (s.withSeq n).dseq = s.dseq := rfl
@[simp] theorem State.withSeq_hostq (n : BitVec 7) : (s.withSeq n).hostq = s.hostq := rfl
@[simp] theorem State.withSeq_rsps (n : BitVec 7) : (s.withSeq n).rsps = s.rsps := rfl

@[simp] theorem State.withCrc_buf (v : Half) : (s.withCrc v).buf = s.buf := rfl
@[simp] theorem State.withCrc_seq (v : Half) : (s.withCrc v).seq = s.seq := rfl
@[simp] theorem State.withCrc_crc (v : Half) : (s.withCrc v).crc = v := rfl
@[simp] theorem State.withCrc_status (v : Half) : (s.withCrc v).status = s.status := rfl
@[simp] theorem State.withCrc_clen (v : Half) : (s.withCrc v).clen = s.clen := rfl
@[simp] theorem State.withCrc_tag (v : Half) : (s.withCrc v).tag = s.tag := rfl
@[simp] theorem State.withCrc_dseq (v : Half) : (s.withCrc v).dseq = s.dseq := rfl
@[simp] theorem State.withCrc_hostq (v : Half) : (s.withCrc v).hostq = s.hostq := rfl
@[simp] theorem State.withCrc_rsps (v : Half) : (s.withCrc v).rsps = s.rsps := rfl

@[simp] theorem State.withDecode_buf (st : Half) (cl : BitVec 5) (tg : Half) (ds : BitVec 7) : (s.withDecode st cl tg ds).buf = s.buf := rfl
@[simp] theorem State.withDecode_seq (st : Half) (cl : BitVec 5) (tg : Half) (ds : BitVec 7) : (s.withDecode st cl tg ds).seq = s.seq := rfl
@[simp] theorem State.withDecode_crc (st : Half) (cl : BitVec 5) (tg : Half) (ds : BitVec 7) : (s.withDecode st cl tg ds).crc = s.crc := rfl
@[simp] theorem State.withDecode_status (st : Half) (cl : BitVec 5) (tg : Half) (ds : BitVec 7) : (s.withDecode st cl tg ds).status = st := rfl
@[simp] theorem State.withDecode_clen (st : Half) (cl : BitVec 5) (tg : Half) (ds : BitVec 7) : (s.withDecode st cl tg ds).clen = cl := rfl
@[simp] theorem State.withDecode_tag (st : Half) (cl : BitVec 5) (tg : Half) (ds : BitVec 7) : (s.withDecode st cl tg ds).tag = tg := rfl
@[simp] theorem State.withDecode_dseq (st : Half) (cl : BitVec 5) (tg : Half) (ds : BitVec 7) : (s.withDecode st cl tg ds).dseq = ds := rfl
@[simp] theorem State.withDecode_hostq (st : Half) (cl : BitVec 5) (tg : Half) (ds : BitVec 7) : (s.withDecode st cl tg ds).hostq = s.hostq := rfl
@[simp] theorem State.withDecode_rsps (st : Half) (cl : BitVec 5) (tg : Half) (ds : BitVec 7) : (s.withDecode st cl tg ds).rsps = s.rsps := rfl

@[simp] theorem State.emit_buf (r : RspWord) : (s.emit r).buf = s.buf := rfl
@[simp] theorem State.emit_seq (r : RspWord) : (s.emit r).seq = s.seq := rfl
@[simp] theorem State.emit_crc (r : RspWord) : (s.emit r).crc = s.crc := rfl
@[simp] theorem State.emit_status (r : RspWord) : (s.emit r).status = s.status := rfl
@[simp] theorem State.emit_clen (r : RspWord) : (s.emit r).clen = s.clen := rfl
@[simp] theorem State.emit_tag (r : RspWord) : (s.emit r).tag = s.tag := rfl
@[simp] theorem State.emit_dseq (r : RspWord) : (s.emit r).dseq = s.dseq := rfl
@[simp] theorem State.emit_hostq (r : RspWord) : (s.emit r).hostq = s.hostq := rfl
@[simp] theorem State.emit_rsps (r : RspWord) : (s.emit r).rsps = s.rsps ++ [r] := rfl

@[simp] theorem State.withHostq_buf (q : List HostEvent) : (s.withHostq q).buf = s.buf := rfl
@[simp] theorem State.withHostq_seq (q : List HostEvent) : (s.withHostq q).seq = s.seq := rfl
@[simp] theorem State.withHostq_crc (q : List HostEvent) : (s.withHostq q).crc = s.crc := rfl
@[simp] theorem State.withHostq_status (q : List HostEvent) : (s.withHostq q).status = s.status := rfl
@[simp] theorem State.withHostq_clen (q : List HostEvent) : (s.withHostq q).clen = s.clen := rfl
@[simp] theorem State.withHostq_tag (q : List HostEvent) : (s.withHostq q).tag = s.tag := rfl
@[simp] theorem State.withHostq_dseq (q : List HostEvent) : (s.withHostq q).dseq = s.dseq := rfl
@[simp] theorem State.withHostq_hostq (q : List HostEvent) : (s.withHostq q).hostq = q := rfl
@[simp] theorem State.withHostq_rsps (q : List HostEvent) : (s.withHostq q).rsps = s.rsps := rfl

@[simp] theorem takeReset_buf : (takeReset s).buf = [] := rfl
@[simp] theorem takeReset_seq : (takeReset s).seq = 0 := rfl
@[simp] theorem takeReset_crc : (takeReset s).crc = 0 := rfl
@[simp] theorem takeReset_status : (takeReset s).status = 0 := rfl
@[simp] theorem takeReset_clen : (takeReset s).clen = 0 := rfl
@[simp] theorem takeReset_tag : (takeReset s).tag = 0 := rfl
@[simp] theorem takeReset_dseq : (takeReset s).dseq = 127 := rfl
@[simp] theorem takeReset_hostq : (takeReset s).hostq = s.hostq := rfl
@[simp] theorem takeReset_rsps : (takeReset s).rsps = s.rsps := rfl

@[simp] theorem State.reset_buf : State.reset.buf = [] := rfl
@[simp] theorem State.reset_seq : State.reset.seq = 0 := rfl
@[simp] theorem State.reset_crc : State.reset.crc = 0 := rfl
@[simp] theorem State.reset_status : State.reset.status = 0 := rfl
@[simp] theorem State.reset_clen : State.reset.clen = 0 := rfl
@[simp] theorem State.reset_tag : State.reset.tag = 0 := rfl
@[simp] theorem State.reset_dseq : State.reset.dseq = 127 := rfl
@[simp] theorem State.reset_hostq : State.reset.hostq = [] := rfl
@[simp] theorem State.reset_rsps : State.reset.rsps = [] := rfl

@[simp] theorem params_chunkMax : params.chunkMax = 25 := rfl
@[simp] theorem params_tagDigits : params.tagDigits = 2 := rfl
@[simp] theorem params_tagMod : params.tagMod = 100 := rfl
@[simp] theorem params_ckDigits : params.ckDigits = 5 := rfl
@[simp] theorem params_frameMax : params.frameMax = 32 := rfl
@[simp] theorem params_crcWidth : params.crcWidth = 16 := rfl
@[simp] theorem params_frameMin : params.frameMin = 7 := rfl
@[simp] theorem params_crcPoly : params.crcPoly = 0x1021 := rfl
@[simp] theorem params_crcInit : params.crcInit = 0 := rfl
@[simp] theorem params_crcXorOut : params.crcXorOut = 0 := rfl
@[simp] theorem params_dseqNone : params.dseqNone = 127 := rfl

/-- A host event at the head of the queue is taken off it before the unit acts on it. -/
theorem offer_withHostq (cmd : CmdWord) : (offer cmd s).withHostq s.hostq = s := rfl

end Sys2Proof.Machine
end

