-- ==== Sys2Proof/Laws/Crc.lean ====
section
/-! SUPPORT. The CRC as a fold, and the one round and the eight rounds of R91 as linear maps over XOR. -/

namespace Sys2Proof.Machine

/-- With R10's zero initial value and zero final XOR the CRC is the plain fold of R92. -/
theorem crc16_eq_foldl (s : List Byte) : crc16 s = s.foldl crcStep 0 := by
  exact BitVec.xor_zero (x := s.foldl crcStep 0)

/-- The CRC of a concatenation is the fold over its second part, from the CRC of its first (R94 (e)). -/
theorem crc16_append (s t : List Byte) : crc16 (s ++ t) = t.foldl crcStep (crc16 s) := by
  simp only [crc16_eq_foldl, List.foldl_append]

/-- A value XORed into both sides cancels. -/
theorem xor_xor_cancel (a b p : Half) : (a ^^^ p) ^^^ (b ^^^ p) = a ^^^ b := by
  rw [show (a ^^^ p) ^^^ (b ^^^ p) = (a ^^^ b) ^^^ (p ^^^ p) by ac_rfl, BitVec.xor_self, BitVec.xor_zero]

/-- One round is linear over XOR, whatever the polynomial. -/
theorem crcShift_xor (poly x y : Half) : crcShift poly (x ^^^ y) = crcShift poly x ^^^ crcShift poly y := by
  simp only [crcShift, BitVec.getLsbD_xor, BitVec.shiftLeft_xor_distrib]
  cases x.getLsbD 15 <;> cases y.getLsbD 15 <;> simp [xor_xor_cancel] <;> ac_rfl

/-- `k` rounds are linear over XOR. -/
theorem crcShifts_xor (poly : Half) (k : Nat) (x y : Half) :
    crcShifts poly k (x ^^^ y) = crcShifts poly k x ^^^ crcShifts poly k y := by
  induction k generalizing x y with
  | zero => rfl
  | succ k ih => simp only [crcShifts, crcShift_xor, ih]

/-- Rounds compose. -/
theorem crcShifts_add (poly : Half) (j k : Nat) (x : Half) :
    crcShifts poly (j + k) x = crcShifts poly k (crcShifts poly j x) := by
  induction j generalizing x with
  | zero => rw [Nat.zero_add]; rfl
  | succ j ih => rw [Nat.succ_add]; exact ih _

/-- A byte step is linear over XOR, in the accumulator and in the byte together. -/
theorem crcStep_xor (c d : Half) (a b : Byte) : crcStep (c ^^^ d) (a ^^^ b) = crcStep c a ^^^ crcStep d b := by
  simp only [crcStep, crcStepBy, ← crcShifts_xor]
  congr 1
  have : (a ^^^ b).zeroExtend 16 <<< 8 = (a.zeroExtend 16 <<< 8) ^^^ (b.zeroExtend 16 <<< 8 : Half) := by
    rw [← BitVec.shiftLeft_xor_distrib]; congr 1
  rw [this]; ac_rfl

/-- Bit 0 of the polynomial is 1, so only zero is shifted to zero. -/
theorem crcShift_eq_zero {x : Half} (h : crcShift 0x1021 x = 0) : x = 0 := by
  have hb : x.getLsbD 15 = false := by
    cases hx : x.getLsbD 15 with
    | false => rfl
    | true => simpa [crcShift, hx] using congrArg (fun v : Half => v.getLsbD 0) h
  simp only [crcShift, hb] at h
  apply BitVec.eq_of_getLsbD_eq
  intro i hi
  by_cases h15 : i = 15
  · subst h15; simpa using hb
  · simpa [show i + 1 < 16 by omega, BitVec.getLsbD_eq_getElem, hi] using
      congrArg (fun v : Half => v.getLsbD (i + 1)) h

theorem crcShifts_eq_zero {k : Nat} {x : Half} (h : crcShifts 0x1021 k x = 0) : x = 0 := by
  induction k generalizing x with
  | zero => exact h
  | succ k ih => exact crcShift_eq_zero (ih h)

/-- For a given byte a step loses nothing of the accumulator. -/
theorem crcStep_injective {c d : Half} {b : Byte} (h : crcStep c b = crcStep d b) : c = d := by
  have h0 : crcStep (c ^^^ d) 0 = 0 := by
    have := crcStep_xor c d b b
    rwa [h, BitVec.xor_self, BitVec.xor_self] at this
  simpa using crcShifts_eq_zero (x := (c ^^^ d) ^^^ _) h0

end Sys2Proof.Machine
end

