-- ==== Sys2Proof/Laws/Decimal.lean ====
section
/-! SUPPORT. The decimal fields: their length, their digits, reading a digit back. -/

namespace Sys2Proof.Machine

@[simp] theorem length_decDigits (k n : Nat) : (decDigits k n).length = k := by simp [decDigits]

@[simp] theorem length_dec2 (n : Nat) : (dec2 n).length = 2 := length_decDigits _ _

@[simp] theorem length_dec5 (v : Half) : (dec5 v).length = 5 := length_decDigits _ _

theorem dec2_eq (n : Nat) : dec2 n = [asciiDigit (n / 10), asciiDigit n] := by
  simp [dec2, decDigits, List.range_succ]

theorem dec5_eq (v : Half) : dec5 v = [asciiDigit (v.toNat / 10000), asciiDigit (v.toNat / 1000),
    asciiDigit (v.toNat / 100), asciiDigit (v.toNat / 10), asciiDigit v.toNat] := by
  simp [dec5, decDigits, List.range_succ]

theorem asciiDigit_toNat (m : Nat) : (asciiDigit m).toNat = 0x30 + m % 10 := by
  simp [asciiDigit]; omega

@[simp] theorem isDigit_asciiDigit (m : Nat) : isDigit (asciiDigit m) = true := by
  simp [isDigit, asciiDigit_toNat]; omega

@[simp] theorem digitVal_asciiDigit (m : Nat) : digitVal (asciiDigit m) = m % 10 := by
  simp [digitVal, asciiDigit_toNat]

/-- A digit byte is the ASCII digit of its value. -/
theorem asciiDigit_digitVal {b : Byte} (h : isDigit b = true) : asciiDigit (digitVal b) = b := by
  have hb := b.isLt
  simp only [isDigit, Bool.and_eq_true, decide_eq_true_eq] at h
  apply BitVec.eq_of_toNat_eq
  simp only [asciiDigit_toNat, digitVal]
  omega

theorem digitVal_lt {b : Byte} (h : isDigit b = true) : digitVal b < 10 := by
  simp only [isDigit, Bool.and_eq_true, decide_eq_true_eq] at h
  simp only [digitVal]; omega

/-- Two ASCII digits are equal only for the same units digit. -/
theorem asciiDigit_inj {m n : Nat} (h : asciiDigit m = asciiDigit n) : m % 10 = n % 10 := by
  have := congrArg BitVec.toNat h
  simp only [asciiDigit_toNat] at this; omega

theorem isDigit_iff (b : Byte) : isDigit b = true ↔ 0x30 ≤ b.toNat ∧ b.toNat ≤ 0x39 := by simp [isDigit]

/-- A numeric tag is at most 99 (D26). -/
theorem tagNumber_le {tag : List Byte} {n : Nat} (h : tagNumber tag = some n) : n ≤ 99 := by
  match tag, h with
  | [t0, t1], h =>
    simp only [tagNumber] at h
    split at h
    · rename_i hd
      simp only [Bool.and_eq_true] at hd
      have := digitVal_lt hd.1
      have := digitVal_lt hd.2
      simp only [Option.some.injEq] at h
      omega
    · cases h

/-- `dec2` of the number two digits spell is the two digits. -/
theorem dec2_of_digits {t0 t1 : Byte} (h0 : isDigit t0 = true) (h1 : isDigit t1 = true) :
    dec2 (10 * digitVal t0 + digitVal t1) = [t0, t1] := by
  have := digitVal_lt h0
  have := digitVal_lt h1
  rw [dec2_eq, show (10 * digitVal t0 + digitVal t1) / 10 = digitVal t0 by omega, asciiDigit_digitVal h0]
  conv_rhs => rw [← asciiDigit_digitVal h1]
  simp only [asciiDigit]
  congr 4
  omega

end Sys2Proof.Machine
end

