-- ==== Sys2Proof/Laws/Decode.lean ====
section
/-! SUPPORT. The fields of a command word and of a response word. -/

namespace Sys2Proof

/-- Bit `i` of a command word made of two fields. -/
theorem getLsbD_fields (op arg : Byte) (i : Nat) :
    BitVec.getLsbD (op ++ arg : CmdWord) i = if i < 8 then arg.getLsbD i else op.getLsbD (i - 8) := by
  simpa using BitVec.getLsbD_append (x := op) (y := arg) (i := i)

theorem opField_append (op arg : Byte) : opField (op ++ arg : CmdWord) = op := by
  apply BitVec.eq_of_getLsbD_eq
  intro i hi
  simp only [opField, BitVec.getLsbD_extractLsb', hi, decide_true, Bool.true_and, getLsbD_fields,
    show ¬ 8 + i < 8 by omega, if_false, Nat.add_sub_cancel_left]

theorem argField_append (op arg : Byte) : argField (op ++ arg : CmdWord) = arg := by
  apply BitVec.eq_of_getLsbD_eq
  intro i hi
  simp only [argField, BitVec.getLsbD_extractLsb', hi, decide_true, Bool.true_and, getLsbD_fields, Nat.zero_add,
    if_true]

/-- A word is its two fields. -/
theorem opField_append_argField (w : CmdWord) : (opField w ++ argField w : CmdWord) = w := by
  apply BitVec.eq_of_getLsbD_eq
  intro i hi
  simp only [getLsbD_fields, opField, argField, BitVec.getLsbD_extractLsb']
  split
  · simp [*]
  · rw [show 8 + (i - 8) = i by omega]
    simp; omega

@[simp] theorem opField_encode (i : Instr) : opField (encode i) = opcodeOf i := opField_append _ _

@[simp] theorem argField_encode (i : Instr) : argField (encode i) = operandOf i := argField_append _ _

theorem opField_toNat (w : CmdWord) : (opField w).toNat = w.toNat / 256 := by
  have h := w.isLt
  simp only [opField, BitVec.extractLsb'_toNat, Nat.shiftRight_eq_div_pow]
  omega

theorem argField_toNat (w : CmdWord) : (argField w).toNat = w.toNat % 256 := by
  simp [argField, BitVec.extractLsb'_toNat]

/-- A word's fields determine it. -/
theorem fields_inj {a b c d : Byte} : (a ++ b : CmdWord) = (c ++ d : CmdWord) ↔ a = c ∧ b = d := by
  constructor
  · intro h
    exact ⟨by rw [← opField_append a b, h, opField_append], by rw [← argField_append a b, h, argField_append]⟩
  · rintro ⟨rfl, rfl⟩; rfl

/-- The mask of a row with an operand keeps the opcode field alone. -/
theorem and_opcodeMask (w : CmdWord) : w &&& 0xFF00 = (opField w ++ 0x00#8 : CmdWord) := by
  apply BitVec.eq_of_getLsbD_eq
  intro i hi
  rw [getLsbD_fields]
  simp only [opField, BitVec.getLsbD_extractLsb', BitVec.getLsbD_and]
  interval_cases i <;> simp

/-- Matching a row with an operand is having its opcode. -/
theorem match_opcodeMask (w : CmdWord) (op : Byte) {m : CmdWord} (hm : m = (op ++ 0x00#8 : CmdWord)) :
    w &&& 0xFF00 = m ↔ (opField w).toNat = op.toNat := by
  rw [and_opcodeMask, hm, fields_inj]; simp [BitVec.toNat_inj]

/-- Matching a row of format N is having its opcode and a zero operand. -/
theorem match_fullMask (w : CmdWord) (op : Byte) {m : CmdWord} (hm : m = (op ++ 0x00#8 : CmdWord)) :
    w &&& 0xFFFF = m ↔ (opField w).toNat = op.toNat ∧ argField w = 0 := by
  rw [show w &&& 0xFFFF = w from BitVec.and_allOnes (x := w), hm]
  conv_lhs => rw [← opField_append_argField w]
  rw [fields_inj, BitVec.toNat_inj]; rfl

@[simp] theorem noOperand_eq_command {arg : Byte} {i j : Instr} :
    noOperand arg i = .command j ↔ arg = 0 ∧ i = j := by
  unfold noOperand; split <;> simp_all

namespace Machine

/-- Bit `i` of a response word. -/
theorem getLsbD_rspWord (c : BitVec 4) (d : Half) (i : Nat) :
    (rspWord c d).getLsbD i = if i < 16 then d.getLsbD i else c.getLsbD (i - 16) := by
  simpa [rspWord] using BitVec.getLsbD_append (x := c) (y := d) (i := i)

@[simp] theorem rspCode_rspWord (c : BitVec 4) (d : Half) : rspCode (rspWord c d) = c := by
  apply BitVec.eq_of_getLsbD_eq
  intro i hi
  simp only [rspCode, BitVec.getLsbD_extractLsb', hi, decide_true, Bool.true_and, getLsbD_rspWord,
    show ¬ 16 + i < 16 by omega, if_false, Nat.add_sub_cancel_left]

@[simp] theorem rspData_rspWord (c : BitVec 4) (d : Half) : rspData (rspWord c d) = d := by
  apply BitVec.eq_of_getLsbD_eq
  intro i hi
  simp only [rspData, BitVec.getLsbD_extractLsb', hi, decide_true, Bool.true_and, getLsbD_rspWord, Nat.zero_add,
    if_true]

/-- No refusal has the code of an executed command (R142). -/
theorem refusalCode_ne_zero (c : RefusalCause) : refusalCode c ≠ 0 := by cases c <;> decide

end Machine

end Sys2Proof
end

