-- ==== Sys2Proof/Laws/Exec.lean ====
section
/-! SUPPORT. What each shared operation can do, said once: later proofs cite these and unfold nothing. -/

namespace Sys2Proof.Machine

variable (s : State)

@[simp] theorem respond_eq (v : Half) : respond v s = .next (s.emit (rspWord 0 v)) := rfl

@[simp] theorem refuse_eq (c : RefusalCause) (i : Instr) :
    refuse c i s = .next (s.emit (rspWord (refusalCode c) (encode i))) := rfl

theorem execWord_command {w : CmdWord} {i : Instr} (h : decode w = .command i) : execWord w s = exec i s := by
  simp [execWord, h]

theorem execWord_illegal {w : CmdWord} {why : IllegalWord} (h : decode w = .illegal why) :
    execWord w s = .next (s.emit (rspWord 1 w)) := by
  simp [execWord, h, refuseWord, refusalCode]

/-- With a command at the head of the queue a step is that command's word. -/
theorem step_of_command {w : CmdWord} {q : List HostEvent} (h : s.hostq = .command w :: q) :
    step s = execWord w (s.withHostq q) := by
  simp [step, takeNext, h, takeEvent]

theorem step_of_reset {q : List HostEvent} (h : s.hostq = .reset :: q) :
    step s = .next (takeReset (s.withHostq q)) := by
  simp [step, takeNext, h, takeEvent]

theorem step_of_nil (h : s.hostq = []) : step s = .next s := by
  simp [step, takeNext, h]

/-- A command issued by the host is that command's word on the state as it was. -/
theorem step_offer (w : CmdWord) : step (offer w s) = execWord w s := by
  rw [step_of_command (q := s.hostq) (offer w s) rfl, offer_withHostq]

/-! ### What a command can do, said once

Every command either is refused, by `refusedFor`, or has the unit's state become `effect` and responds `answer`. -/

/-- The cause a command is refused for in a state, if it is (R142). -/
def refusedFor (i : Instr) (s : State) : Option RefusalCause :=
  match i with
  | .rd r => if (regOperand r).isNone then some .illegalReg else none
  | .bufPush _ => if s.buf.length < params.frameMax then none else some .overflow
  | .bufRd k => if indexOperand k < s.buf.length then none else some .index
  | .crcDig k => if indexOperand k < params.ckDigits then none else some .index
  | .seqSet n => if indexOperand n < params.tagMod then none else some .range
  | .encRun => if params.chunkMax < s.buf.length then some .length else none
  | .bufClr | .crcClr | .crcUpd _ | .crcBuf | .seqInc | .decRun => none

/-- The unit's state after a command that executes. -/
def effect (i : Instr) (s : State) : State :=
  match i with
  | .rd _ | .bufRd _ | .crcDig _ => s
  | .bufClr => s.withBuf Memory.clear
  | .bufPush b => s.withBuf (s.buf.append [b])
  | .crcClr => s.withCrc params.crcInit
  | .crcUpd b => s.withCrc (crcStep s.crc b)
  | .crcBuf => s.withCrc (crc16 s.buf)
  | .seqSet n => s.withSeq (BitVec.ofNat 7 (indexOperand n))
  | .seqInc => s.withSeq (nextTag s.seq)
  | .encRun => encoded s
  | .decRun => decoded s

/-- The data a command that executes responds with. -/
def answer (i : Instr) (s : State) : Half :=
  match i with
  | .rd r => ((regOperand r).map (regValue s)).getD 0
  | .bufRd k => ((s.buf.read (indexOperand k)).getD 0).zeroExtend 16
  | .crcDig k => (((dec5 s.crc)[indexOperand k]?).getD 0).zeroExtend 16
  | .seqInc => (nextTag s.seq).zeroExtend 16
  | .encRun => (lenReg (encoded s)).zeroExtend 16
  | .decRun => (decoded s).status
  | .bufClr | .bufPush _ | .crcClr | .crcUpd _ | .crcBuf | .seqSet _ => 0

/-- The state a command leaves: the refusal's response on the same state, or the effect and its answer. -/
def after (i : Instr) (s : State) : State :=
  match refusedFor i s with
  | some c => s.emit (rspWord (refusalCode c) (encode i))
  | none => (effect i s).emit (rspWord 0 (answer i s))

/-- The one equation of `exec`: every command has a next state, and this is it. -/
theorem exec_eq_after (i : Instr) : exec i s = .next (after i s) := by
  cases i with
  | rd r => simp only [exec, execRd, after, refusedFor, effect, answer]; cases regOperand r <;> rfl
  | bufClr => rfl
  | bufPush b => simp only [exec, execBufPush, after, refusedFor]; split <;> rfl
  | bufRd k =>
    simp only [exec, execBufRd, after, refusedFor, effect, answer, Memory.read]
    by_cases h : indexOperand k < s.buf.length
    · simp [h]
    · simp [h]
  | crcClr => rfl
  | crcUpd b => rfl
  | crcBuf => rfl
  | crcDig k =>
    simp only [exec, execCrcDig, after, refusedFor, effect, answer]
    by_cases h : indexOperand k < 5
    · simp [h]
    · simp [h]
  | seqSet n => simp only [exec, execSeqSet, after, refusedFor]; split <;> rfl
  | seqInc => rfl
  | encRun => simp only [exec, execEncRun, after, refusedFor]; split <;> rfl
  | decRun => rfl

/-- Inversion: what a next state of `exec` is. -/
theorem exec_next_cases {i : Instr} {s t : State} (h : exec i s = .next t) :
    (∃ c, refusedFor i s = some c ∧ t = s.emit (rspWord (refusalCode c) (encode i))) ∨
      (refusedFor i s = none ∧ t = (effect i s).emit (rspWord 0 (answer i s))) := by
  rw [exec_eq_after] at h
  obtain rfl := Host.Outcome.next.inj h
  cases hr : refusedFor i s with
  | some c => exact .inl ⟨c, rfl, by simp [after, hr]⟩
  | none => exact .inr ⟨rfl, by simp [after, hr]⟩

@[simp] theorem decoded_buf : (decoded s).buf = s.buf := by unfold decoded; split <;> rfl
@[simp] theorem decoded_seq : (decoded s).seq = s.seq := by unfold decoded; split <;> rfl
@[simp] theorem decoded_hostq : (decoded s).hostq = s.hostq := by unfold decoded; split <;> rfl
@[simp] theorem decoded_rsps : (decoded s).rsps = s.rsps := by unfold decoded; split <;> rfl

theorem decoded_of_short (h : s.buf.length < 7) : decoded s = decodedShort s := if_pos h
theorem decoded_of_long (h : 7 ≤ s.buf.length) : decoded s = decodedLong s := if_neg (Nat.not_lt.mpr h)

@[simp] theorem encoded_seq : (encoded s).seq = s.seq := rfl
@[simp] theorem encoded_buf : (encoded s).buf = encodeFrame s.buf s.seq.toNat := rfl
@[simp] theorem encoded_crc : (encoded s).crc = crc16 (coveredBytes s.buf s.seq.toNat) := rfl

/-- A command that executes leaves the host's queue and earlier responses alone. -/
theorem effect_hostq (i : Instr) : (effect i s).hostq = s.hostq := by cases i <;> first | rfl | simp [effect]

theorem effect_rsps (i : Instr) : (effect i s).rsps = s.rsps := by cases i <;> first | rfl | simp [effect]

theorem nextTag_toNat (q : BitVec 7) : (nextTag q).toNat = (q.toNat + 1) % 100 := by
  simp [nextTag]; omega

/-- The three flags of a `STATUS` word are the three it was made of, and its reserved field is 0. -/
theorem statusWord_flags (a b c : Bool) : validFlag (statusWord a b c) = a ∧ tagnumFlag (statusWord a b c) = b ∧
    shortFlag (statusWord a b c) = c ∧ reservedBits (statusWord a b c) = 0 := by
  revert a b c; decide

/-- A list of commands runs its first command, then the rest. -/
theorem execAll_cons_next {i : Instr} {is : List Instr} {s t : State} (h : exec i s = .next t) :
    execAll (i :: is) s = execAll is t := by
  simp [execAll, h]

/-- Two lists of commands, one after the other. -/
theorem execAll_append {a b : List Instr} {s t : State} (h : execAll a s = .next t) :
    execAll (a ++ b) s = execAll b t := by
  induction a generalizing s with
  | nil => cases h; rfl
  | cons i a ih =>
    simp only [List.cons_append, execAll, exec_eq_after] at *
    exact ih h

end Sys2Proof.Machine
end

