-- ==== Sys2Proof/Laws/Frame.lean ====
section
/-! SUPPORT. The fields of a frame: their lengths, and how they make up the frame again. -/

namespace Sys2Proof.Machine

@[simp] theorem length_coveredBytes (c : List Byte) (n : Nat) : (coveredBytes c n).length = c.length + 2 := by
  simp [coveredBytes]

@[simp] theorem length_encodeFrame (c : List Byte) (n : Nat) : (encodeFrame c n).length = c.length + 7 := by
  simp [encodeFrame]

@[simp] theorem length_frameChunk (f : List Byte) : (frameChunk f).length = f.length - 7 := by
  simp [frameChunk]

theorem length_frameTag {f : List Byte} (h : 7 ≤ f.length) : (frameTag f).length = 2 := by
  simp [frameTag]; omega

theorem length_frameChecksum {f : List Byte} (h : 5 ≤ f.length) : (frameChecksum f).length = 5 := by
  simp [frameChecksum]; omega

/-- The chunk and the tag are the covered bytes, `f[0 .. n-6]` (R61). -/
theorem frameChunk_append_frameTag {f : List Byte} (h : 7 ≤ f.length) :
    frameChunk f ++ frameTag f = f.take (f.length - 5) := by
  rw [show f.length - 5 = (f.length - 7) + 2 by omega, List.take_add]
  rfl

/-- A frame is its three fields in order (R60). -/
theorem frame_fields {f : List Byte} (h : 7 ≤ f.length) :
    frameChunk f ++ frameTag f ++ frameChecksum f = f := by
  rw [frameChunk_append_frameTag h]
  exact List.take_append_drop _ _

/-- The fields of a sequence given by its parts. -/
theorem frame_of_parts {pre ck : List Byte} {t0 t1 : Byte} (h : ck.length = 5) :
    frameChunk (pre ++ [t0, t1] ++ ck) = pre ∧ frameTag (pre ++ [t0, t1] ++ ck) = [t0, t1] ∧
      frameChecksum (pre ++ [t0, t1] ++ ck) = ck := by
  refine ⟨by simp [frameChunk, h], by simp [frameTag, h], ?_⟩
  simp only [frameChecksum]
  rw [show (pre ++ [t0, t1] ++ ck).length - params.ckDigits = (pre ++ [t0, t1]).length by simp [h]]
  simp

/-- The fields of an encoded frame. -/
theorem frame_of_encode (c : List Byte) (n : Nat) :
    frameChunk (encodeFrame c n) = c ∧ frameTag (encodeFrame c n) = dec2 n ∧
      frameChecksum (encodeFrame c n) = dec5 (crc16 (coveredBytes c n)) := by
  have := frame_of_parts (pre := c) (t0 := asciiDigit (n / 10)) (t1 := asciiDigit n)
    (ck := dec5 (crc16 (coveredBytes c n))) (by simp)
  simpa only [encodeFrame, coveredBytes, dec2_eq] using this

end Sys2Proof.Machine
end

