-- ==== Sys2Proof/Laws/Memory.lean ====
section
/-! SUPPORT. The buffer: read after write, a write leaves the bytes below it alone, the canonical form is kept. -/

namespace Sys2Proof.Machine

/-- Below the old length an append changes nothing (R23). -/
theorem Memory.read_append_below (m : Memory) (bs : List Byte) {i : Nat} (h : i < m.length) :
    (m.append bs).read i = m.read i := List.getElem?_append_left h

/-- At and above the old length an append reads as what was appended. -/
theorem Memory.read_append_above (m : Memory) (bs : List Byte) {i : Nat} (h : m.length ≤ i) :
    (m.append bs).read i = bs[i - m.length]? := List.getElem?_append_right h

/-- The byte pushed is read back at the index it was pushed at. -/
theorem Memory.read_push (m : Memory) (b : Byte) : (m.append [b]).read m.length = some b := by
  simp [Memory.read_append_above]

/-- An index reads as a value exactly below the length (R114). -/
theorem Memory.read_isSome_iff (m : Memory) (i : Nat) : (m.read i).isSome ↔ i < m.length := by
  simp [Memory.read]

@[simp] theorem Memory.read_clear (i : Nat) : Memory.clear.read i = none := rfl

@[simp] theorem Memory.length_append (m : Memory) (bs : List Byte) : (m.append bs).length = m.length + bs.length :=
  List.length_append

theorem Memory.wf_iff (m : Memory) : m.wf = true ↔ m.length ≤ 32 := decide_eq_true_iff

theorem Memory.clear_wf : Memory.clear.wf = true := rfl

/-- An append keeps the canonical form when what it appends fits. -/
theorem Memory.append_wf {m : Memory} {bs : List Byte} (h : m.length + bs.length ≤ 32) : (m.append bs).wf = true := by
  simpa [Memory.wf_iff] using h

theorem Memory.reset_wf : State.reset.buf.wf = true := rfl

/-- The buffer as cells: the addresses are 0, 1, 2, ... in rising order. -/
theorem Memory.cells_addresses (m : Memory) : m.cells.map Prod.fst = List.range m.length := by
  have h : (Prod.fst ∘ fun c : Byte × Nat => (c.2, c.1)) = Prod.snd := rfl
  simp [Memory.cells, h, List.range_eq_range']

/-- A cell is listed exactly where the buffer reads as its byte. -/
theorem Memory.mem_cells_iff (m : Memory) (i : Nat) (b : Byte) : (i, b) ∈ m.cells ↔ m.read i = some b := by
  simp [Memory.cells, Memory.read, List.mem_zipIdx_iff_getElem?]

end Sys2Proof.Machine
end

