-- ==== Sys2Proof/Laws/PerInstr.lean ====
section
/-! SUPPORT. Facts of a command as syntax, one lemma per constructor. -/

/-- The two fields of a command's word (R69): the opcode in the high byte, the operand in the low byte, zero for
format N. -/
def Sys2Proof.Laws.Encoding.Statement (i : Sys2Proof.Instr) : Prop :=
  Sys2Proof.opField (Sys2Proof.encode i) = Sys2Proof.opcodeOf i ∧
    Sys2Proof.argField (Sys2Proof.encode i) = Sys2Proof.operandOf i ∧
    (Sys2Proof.formatOf i = .N → Sys2Proof.operandOf i = 0x00)

namespace Sys2Proof.Laws.Encoding

theorem rd (r : Byte) : Statement (.rd r) := ⟨opField_encode _, argField_encode _, nofun⟩
theorem bufClr : Statement .bufClr := ⟨opField_encode _, argField_encode _, fun _ => rfl⟩
theorem bufPush (b : Byte) : Statement (.bufPush b) := ⟨opField_encode _, argField_encode _, nofun⟩
theorem bufRd (i : Byte) : Statement (.bufRd i) := ⟨opField_encode _, argField_encode _, nofun⟩
theorem crcClr : Statement .crcClr := ⟨opField_encode _, argField_encode _, fun _ => rfl⟩
theorem crcUpd (b : Byte) : Statement (.crcUpd b) := ⟨opField_encode _, argField_encode _, nofun⟩
theorem crcBuf : Statement .crcBuf := ⟨opField_encode _, argField_encode _, fun _ => rfl⟩
theorem crcDig (i : Byte) : Statement (.crcDig i) := ⟨opField_encode _, argField_encode _, nofun⟩
theorem seqSet (n : Byte) : Statement (.seqSet n) := ⟨opField_encode _, argField_encode _, nofun⟩
theorem seqInc : Statement .seqInc := ⟨opField_encode _, argField_encode _, fun _ => rfl⟩
theorem encRun : Statement .encRun := ⟨opField_encode _, argField_encode _, fun _ => rfl⟩
theorem decRun : Statement .decRun := ⟨opField_encode _, argField_encode _, fun _ => rfl⟩

end Sys2Proof.Laws.Encoding
end

