-- ==== Sys2Proof/Laws/Safety.lean ====
section
/-! SUPPORT. The invariant and the agreement of two states look at the unit's eight items only. -/

namespace Sys2Proof.Machine

/-- The invariant of R31 is about the unit, not about what the host has done. -/
theorem State.Inv.of_sameUnit {s t : State} (h : s.Inv) (u : SameUnit s t) : t.Inv := by
  obtain ⟨buf, seq, crc, status, clen, tag, dseq, hostq, rsps⟩ := s
  obtain ⟨buf', seq', crc', status', clen', tag', dseq', hostq', rsps'⟩ := t
  simp only [SameUnit] at u
  obtain ⟨rfl, rfl, rfl, rfl, rfl, rfl, rfl⟩ := u
  exact ⟨h.1, h.2, h.3, h.4, h.5, h.6, h.7, h.8⟩

/-- A response and the host's queue leave the unit as it is. -/
theorem sameUnit_emit (s : State) (r : RspWord) : SameUnit s (s.emit r) := ⟨rfl, rfl, rfl, rfl, rfl, rfl, rfl⟩

theorem sameUnit_withHostq (s : State) (q : List HostEvent) : SameUnit s (s.withHostq q) :=
  ⟨rfl, rfl, rfl, rfl, rfl, rfl, rfl⟩

/-- A refused command leaves the unit as it is (R141). -/
theorem sameUnit_refuseWord {c : RefusalCause} {w : CmdWord} {s t : State} (h : refuseWord c w s = .next t) :
    SameUnit s t := by
  cases h; exact sameUnit_emit _ _

/-- The invariant keeps the buffer's canonical form. -/
theorem State.Inv.buf_wf {s : State} (h : s.Inv) : s.buf.wf = true := decide_eq_true h.len

end Sys2Proof.Machine
end

