-- ==== Sys2Proof/Laws/Session.lean ====
section
/-! SUPPORT. What lists of commands leave in a unit, and what the receiver, the link and the sender do with a frame. -/

namespace Sys2Proof.Machine

variable (s u : State) (h : HostParams)

/-! ### Lists of commands -/

theorem execAll_cons (i : Instr) (is : List Instr) : execAll (i :: is) s = execAll is (after i s) :=
  execAll_cons_next (exec_eq_after s i)

/-- A list of commands always has a next state. -/
theorem execAll_eq_afterAll (is : List Instr) : execAll is s = .next (afterAll is s) := by
  induction is generalizing s with
  | nil => rfl
  | cons i is ih =>
    unfold afterAll
    rw [execAll_cons, ih]

@[simp] theorem afterAll_nil : afterAll [] s = s := rfl

@[simp] theorem afterAll_cons (i : Instr) (is : List Instr) : afterAll (i :: is) s = afterAll is (after i s) := by
  rw [afterAll, execAll_cons, execAll_eq_afterAll]

theorem afterAll_append (a b : List Instr) : afterAll (a ++ b) s = afterAll b (afterAll a s) := by
  induction a generalizing s with
  | nil => rfl
  | cons i a ih => simpa using ih _

theorem after_of_none {i : Instr} (hr : refusedFor i s = none) :
    after i s = (effect i s).emit (rspWord 0 (answer i s)) := by
  simp only [after, hr]

theorem afterAll_push (bs : List Byte) (hl : s.buf.length + bs.length ≤ 32) :
    ∃ r, afterAll (bs.map .bufPush) s = { s with buf := s.buf ++ bs, rsps := s.rsps ++ r } := by
  induction bs generalizing s with
  | nil => exact ⟨[], by simp⟩
  | cons b bs ih =>
    simp only [List.length_cons] at hl
    have hr : refusedFor (.bufPush b) s = none := if_pos (show s.buf.length < 32 by omega)
    obtain ⟨r, hr'⟩ := ih ((s.withBuf (s.buf.append [b])).emit (rspWord 0 0))
      (by simp only [State.emit_buf, State.withBuf_buf, Memory.length_append, List.length_singleton]; omega)
    refine ⟨rspWord 0 0 :: r, ?_⟩
    rw [List.map_cons, afterAll_cons, after_of_none s hr]
    simp only [effect, answer]
    rw [hr']
    simp [State.emit, State.withBuf, Memory.append]

/-- `LOAD bs` makes `BUF = bs` and leaves every other item (R77). -/
theorem afterAll_load (bs : List Byte) (hl : bs.length ≤ 32) :
    ∃ r, afterAll (loadCommands bs) s = { s with buf := bs, rsps := s.rsps ++ r } := by
  obtain ⟨r, hr⟩ := afterAll_push (after .bufClr s) bs (by simpa [after, refusedFor, effect, Memory.clear] using hl)
  refine ⟨rspWord 0 0 :: r, ?_⟩
  rw [loadCommands, afterAll_cons, hr]
  simp [after, refusedFor, effect, answer, State.emit, State.withBuf, Memory.clear]

/-- A chunk loaded and encoded is its frame, with the tag in `SEQ`, and `SEQ` stays. -/
theorem afterAll_loadEncode (c : List Byte) (hc : c.length ≤ 25) :
    (afterAll (loadCommands c ++ [.encRun]) s).buf = encodeFrame c s.seq.toNat ∧
      (afterAll (loadCommands c ++ [.encRun]) s).seq = s.seq := by
  obtain ⟨r, hr⟩ := afterAll_load s c (by omega)
  have hn : refusedFor .encRun { s with buf := c, rsps := s.rsps ++ r } = none := if_neg (by simpa using hc)
  rw [afterAll_append, hr, afterAll_cons, afterAll_nil, after_of_none _ hn]
  exact ⟨rfl, rfl⟩

/-- A frame loaded and decoded stays in the buffer. -/
theorem afterAll_decode_buf (f : List Byte) (hf : f.length ≤ 32) : (afterAll (expand (.decode f)) u).buf = f := by
  obtain ⟨r, hr⟩ := afterAll_load u f hf
  rw [expand, afterAll_append, hr, afterAll_cons, afterAll_nil, after_of_none _ rfl]
  simp [effect]

/-- What decoding an encoded frame reports. -/
theorem afterAll_decode_encoded (c : List Byte) (n : Nat) (hc : c.length ≤ 25) (hn : n ≤ 99) :
    let v := afterAll (expand (.decode (encodeFrame c n))) u
    v.buf = encodeFrame c n ∧ validFlag v.status = true ∧ tagnumFlag v.status = true ∧ shortFlag v.status = false ∧
      v.tag = tagWord (dec2 n) ∧ decodedChunk v = c := by
  obtain ⟨r, hr⟩ := afterAll_load u (encodeFrame c n) (by simp; omega)
  simp only [expand, afterAll_append, hr, afterAll_cons, afterAll_nil, after_of_none _ (rfl : refusedFor .decRun _ = none),
    effect]
  rw [decoded_of_long _ (by simp)]
  obtain ⟨f1, f2, f3⟩ := frame_of_encode c n
  have ht : tagNumber (dec2 n) = some n := by rw [dec2_eq]; simp [tagNumber]; omega
  have hv : (dec5 (crc16 (c ++ dec2 n)) == dec5 (crc16 (coveredBytes c n))) = true := by simp [coveredBytes]
  simp only [decodedChunk, decodedLong, State.emit, State.withCrc, State.withDecode, decodeFrame, f1, f2, f3, frameCrc,
    hv, ht, (statusWord_flags _ _ _).1, (statusWord_flags _ _ _).2.1, (statusWord_flags _ _ _).2.2.1, Option.isSome_some, true_and]
  rw [show (BitVec.ofNat 5 c.length).toNat = c.length by simp; omega]
  simp [encodeFrame, coveredBytes]

/-- The tags of two numbers are the same two bytes only for the same number. -/
theorem tagWord_dec2_inj {m n : Nat} (hm : m ≤ 99) (hn : n ≤ 99) (he : tagWord (dec2 m) = tagWord (dec2 n)) : m = n := by
  have key : ∀ a b : Fin 100, tagWord (dec2 a) = tagWord (dec2 b) → a = b := by decide +kernel
  exact congrArg Fin.val (key ⟨m, by omega⟩ ⟨n, by omega⟩ he)

/-! ### Reading a frame out -/

/-- A read, executed or refused, leaves one response and nothing else. -/
theorem after_read {i : Instr} (hi : effect i s = s) : ∃ r, after i s = s.emit r := by
  unfold after
  split
  · exact ⟨_, rfl⟩
  · exact ⟨_, by rw [hi]⟩

/-- Reading a frame out changes nothing in the unit (R45). -/
theorem afterAll_readOut (n : Nat) : ∃ r, afterAll (expand (.dump n)) s = { s with rsps := s.rsps ++ r } := by
  have key : ∀ (is : List Instr), (∀ i ∈ is, ∀ t, effect i t = t) → ∀ t, ∃ r, afterAll is t = { t with rsps := t.rsps ++ r } := by
    intro is
    induction is with
    | nil => exact fun _ t => ⟨[], by simp⟩
    | cons i is ih =>
      intro hi t
      obtain ⟨x, hx⟩ := after_read t (hi i (by simp) t)
      obtain ⟨r, hr⟩ := ih (fun j hj => hi j (by simp [hj])) (t.emit x)
      exact ⟨x :: r, by rw [afterAll_cons, hx, hr]; simp [State.emit]⟩
  refine key _ ?_ s
  simp [expand, effect]

/-- Handing a transmission to `send` leaves the unit as it was, but for responses. -/
theorem handOver_unit (x : Transmission) : ∃ r, (handOver u x).1 = { u with rsps := u.rsps ++ r } := by
  cases x with
  | silent => exact ⟨[], by simp [handOver]⟩
  | buffer => exact afterAll_readOut u _
  | raw bytes => exact ⟨[], by simp [handOver]⟩

/-! ### The receiver -/

theorem receiverStep_listening {r : Receiver} (hr : r.finalized = false) :
    receiverStep h r s = ((receiverAct h r s (receiverVerdict h r s)).1,
      some (receiverAct h r s (receiverVerdict h r s)).2) := if_neg (by simp [hr])

@[simp] theorem receiverStep_finalized {r : Receiver} (hr : r.finalized = true) : receiverStep h r s = (r, none) :=
  if_pos hr

@[simp] theorem receive_finalized {r : Receiver} (hr : r.finalized = true) (f : List Byte) :
    receive h r u f = (r, u, none) := if_pos hr

theorem repeatsTag_of_not_marker {r : Receiver} (hm : isEndMarker h s = false) :
    repeatsTag h r s = (!shortFlag s.status && r.lastAcceptedTag == some s.tag) := by
  simp [repeatsTag, hasTag, hm]

/-- A short frame has no tag. -/
theorem repeatsTag_of_short {r : Receiver} (hs : shortFlag s.status = true) : repeatsTag h r s = false := by
  simp [repeatsTag, hasTag, hs]

/-- A frame with another tag than the last accepted one does not repeat it. -/
theorem repeatsTag_of_new {r : Receiver} (ht : r.lastAcceptedTag ≠ some s.tag) : repeatsTag h r s = false := by
  simp [repeatsTag, ht]

/-- A valid frame with a numeric new tag is accepted. -/
theorem receiverStep_accept {r : Receiver} (hr : r.finalized = false) (hm : isEndMarker h s = false)
    (ht : r.lastAcceptedTag ≠ some s.tag) (hv : validFlag s.status = true) (hn : tagnumFlag s.status = true) :
    receiverStep h r s = ({ r with transferBuffer := r.transferBuffer ++ [decodedChunk s],
                                   lastAcceptedTag := some s.tag }, some ackGood) := by
  simp [receiverStep_listening, hr, receiverVerdict, hm, repeatsTag_of_new s h ht, hv, newValidVerdict, hn, receiverAct]

/-- A frame with the last accepted tag is a duplicate, valid or not. -/
theorem receiverStep_duplicate {r : Receiver} (hr : r.finalized = false) (hm : isEndMarker h s = false)
    (hs : shortFlag s.status = false) (ht : r.lastAcceptedTag = some s.tag) : receiverStep h r s = (r, some ackGood) := by
  simp [receiverStep_listening, hr, receiverVerdict, hm, repeatsTag_of_not_marker, hs, ht, receiverAct]

/-- A frame that does not carry the last accepted tag and does not validate is rejected. -/
theorem receiverStep_reject {r : Receiver} (hr : r.finalized = false) (hm : isEndMarker h s = false)
    (ht : repeatsTag h r s = false) (hv : validFlag s.status = false) : receiverStep h r s = (r, some ackBad) := by
  simp [receiverStep_listening, hr, receiverVerdict, hm, ht, hv, receiverAct]

/-- An end marker with another tag than the last accepted one, or with none, terminates. -/
theorem receiverStep_terminate {r : Receiver} (hr : r.finalized = false) (hm : isEndMarker h s = true)
    (ht : repeatsTag h r s = false) : receiverStep h r s = ({ r with finalized := true }, some h.finalAck) := by
  simp [receiverStep_listening, hr, receiverVerdict, hm, ht, receiverAct]

/-! ### The link and the session -/

@[simp] theorem linkGives_drop (f : List Byte) : linkGives .drop f = none := rfl

theorem linkGives_deliver {f : List Byte} (hf : f.length ≤ 32) : linkGives .deliver f = some f := by
  simp [linkGives, linkCarries, linkMayDeliver, hf]

/-- Whatever the link gives has at most 32 bytes (R181). -/
theorem linkGives_length {a : LinkAction} {f g : List Byte} (hg : linkGives a f = some g) : g.length ≤ 32 := by
  unfold linkGives at hg
  split at hg
  · rename_i hm; rw [hg] at hm; exact of_decide_eq_true hm
  · cases hg

/-- An altered frame is nothing or the other frame. -/
theorem linkGives_alter (f g : List Byte) : linkGives (.alter g) f = none ∨ linkGives (.alter g) f = some g := by
  have : linkGives (.alter g) f = if linkMayDeliver f (some g) then some g else none := rfl
  rw [this]; split
  · exact .inr rfl
  · exact .inl rfl

@[simp] theorem sessionRun_nil (x : Session) : sessionRun h [] x = x := rfl

@[simp] theorem sessionRun_cons (l : LinkAction × LinkAction) (ls : List (LinkAction × LinkAction)) (x : Session) :
    sessionRun h (l :: ls) x = sessionRun h ls (sessionStep h l x) := rfl

theorem sessionRun_append (a b : List (LinkAction × LinkAction)) (x : Session) :
    sessionRun h (a ++ b) x = sessionRun h b (sessionRun h a x) := by
  simp [sessionRun, List.foldl_append]

/-- Where the sender transmits nothing, only its own part moves. -/
theorem sessionStep_silent {l : LinkAction × LinkAction} {x : Session}
    (hs : (senderStep h x.sender x.inbox).2.2 = .silent) : sessionStep h l x = x.senderMoves h := by
  have hn : (x.handsOver h).2 = none := by simp [Session.handsOver, Session.senderActs, poll, hs, handOver]
  simp [sessionStep, hn]

/-- Where nothing waits for the receiver, only the record of what was sent grows. -/
@[simp] theorem listen_none (b : LinkAction) (x : Session) : x.listen h b none = x := rfl

@[simp] theorem listen_some (b : LinkAction) (f : List Byte) (x : Session) : x.listen h b (some f) = x.arrive h b f := rfl

/-- What a transition can do to the receiver's side: nothing, or what one frame that arrives does. -/
theorem sessionStep_receiver_cases (l : LinkAction × LinkAction) (x : Session) :
    ((sessionStep h l x).receiver = x.receiver ∧ (sessionStep h l x).receiverUnit = x.receiverUnit ∧
      (sessionStep h l x).answered = x.answered) ∨
    ∃ g, (sessionStep h l x).receiver = (receive h x.receiver x.receiverUnit g).1 ∧
      (sessionStep h l x).receiverUnit = (receive h x.receiver x.receiverUnit g).2.1 ∧
      (sessionStep h l x).answered = x.answered ++ (receive h x.receiver x.receiverUnit g).2.2.toList := by
  unfold sessionStep
  split
  · exact .inl ⟨rfl, rfl, rfl⟩
  · rename_i frame _
    unfold Session.send
    cases linkGives l.1 frame with
    | none => exact .inl ⟨rfl, rfl, rfl⟩
    | some g => exact .inr ⟨g, rfl, rfl, rfl⟩

/-- Every step that is kept keeps a property along a run. -/
theorem sessionRun_induction {P : Session → Prop} {ls : List (LinkAction × LinkAction)} {x : Session} (hx : P x)
    (hstep : ∀ l ∈ ls, ∀ y, P y → P (sessionStep h l y)) : P (sessionRun h ls x) := by
  induction ls generalizing x with
  | nil => exact hx
  | cons l ls ih =>
    exact ih (hstep l (by simp) x hx) fun k hk y hy => hstep k (by simp [hk]) y hy

end Sys2Proof.Machine
end

