-- ==== Sys2Proof/WellFormed.lean ====
section
/-! DEFINITION. The static check on a command: its operand is one the command's rule calls legal in some
state. It is NOT a condition of decoding or of execution (R71 step 4): a word whose operand fails the check still
decodes, and executing it is the refusal its rule names (log entry 13). -/

namespace Sys2Proof

/-- The operand is legal in some state: a defined register number (R111: "0..6 defined"), an index that can
be below `LEN` (R46: "indices 32..255 ... never become valid"), a digit index (R98: "0..4 legal"), a tag
(R121: "0..99 legal"). A data byte is always legal (R113, R96), and a format N command has no operand. -/
def Instr.wellFormed : Instr → Bool
  | .rd r => decide (r.toNat ≤ 6)
  | .bufClr => true
  | .bufPush _ => true
  | .bufRd i => decide (i.toNat < Machine.params.frameMax)
  | .crcClr => true
  | .crcUpd _ => true
  | .crcBuf => true
  | .crcDig i => decide (i.toNat < Machine.params.ckDigits)
  | .seqSet n => decide (n.toNat < Machine.params.tagMod)
  | .seqInc => true
  | .encRun => true
  | .decRun => true

end Sys2Proof
end

