-- ==== Sys2Proof/Tests/Slice0.lean ====
section
/-! SUPPORT. The model's own tests. Expected results come from the spec: the words from R69 and R70, the values from
`95_test_vectors.md` (V, P: its numbers), where those name one; otherwise from the rule named. The witnesses at the end meet the hypotheses of the
statements of `Certificates/Slice0/Obligations.lean`, one at each boundary. -/

namespace Sys2Proof.Tests

open Sys2Proof Sys2Proof.Machine

/- One theorem after another: many kernel evaluations at once need more threads than a small sandbox has. -/
set_option Elab.async false

/-- The reset unit with these bytes in its buffer. -/
def holding (bs : List Byte) : State := State.reset.withBuf bs

/-- The reset unit with `n` bytes 0x41 in its buffer. -/
def filled (n : Nat) : State := holding (List.replicate n 0x41)

/-- A text as bytes. -/
def ascii (cs : List Char) : List Byte := cs.map fun c => BitVec.ofNat 8 c.toNat

/-- "Hello0021203" (V30). -/
def helloFrame : List Byte := [0x48, 0x65, 0x6C, 0x6C, 0x6F, 0x30, 0x30, 0x32, 0x31, 0x32, 0x30, 0x33]

/-- "A0006491" (V29). -/
def aFrame : List Byte := [0x41, 0x30, 0x30, 0x30, 0x36, 0x34, 0x39, 0x31]

/-- The state one step after the word is offered. -/
def onWord (w : CmdWord) (s : State) : Option State := nextOf (step (offer w s))

/-- The last response of a state, as code and data. -/
def lastRsp (s : State) : Option (BitVec 4 × Half) := s.rsps.getLast?.map fun r => (rspCode r, rspData r)

/-- What the unit responds to a word. -/
def rspTo (w : CmdWord) (s : State) : Option (BitVec 4 × Half) := (onWord w s).bind lastRsp

/-- Code and data of the word's response, and whether the unit is as before. -/
def refusedAs (w : CmdWord) (code : BitVec 4) (s : State) : Bool :=
  (onWord w s).map (fun t => decide (lastRsp t = some (code, w) ∧ { t with rsps := s.rsps } = s)) == some true

/-- What the decoder leaves: `STATUS`, `CLEN`, `TAG`, `DSEQ`, `CRC`. -/
def decodeResults (s : State) : List Nat := [s.status.toNat, s.clen.toNat, s.tag.toNat, s.dseq.toNat, s.crc.toNat]

/-! ### WellFormed: an ill-formed term for each check -/

theorem test_illFormed_rd : (Instr.rd 7).wellFormed = false := by decide
theorem test_illFormed_bufRd : (Instr.bufRd 32).wellFormed = false := by decide
theorem test_illFormed_crcDig : (Instr.crcDig 5).wellFormed = false := by decide
theorem test_illFormed_seqSet : (Instr.seqSet 100).wellFormed = false := by decide
theorem test_wellFormed_largest : ((Instr.rd 6).wellFormed && (Instr.bufRd 31).wellFormed && (Instr.crcDig 4).wellFormed &&
    (Instr.seqSet 99).wellFormed && (Instr.bufPush 255).wellFormed && Instr.decRun.wellFormed) = true := by decide

/-! ### Decoding: the words written out from R69 and R70 -/

theorem test_decode_rd : decode 0b0000000100000101#16 = .command (.rd 5) := by decide
theorem test_decode_bufClr : decode 0b0001000000000000#16 = .command .bufClr := by decide
theorem test_decode_bufPush : decode 0b0001000110100101#16 = .command (.bufPush 0xA5) := by decide
theorem test_decode_bufRd : decode 0b0001001000011111#16 = .command (.bufRd 31) := by decide
theorem test_decode_crcClr : decode 0b0010000000000000#16 = .command .crcClr := by decide
theorem test_decode_crcUpd : decode 0b0010000110000001#16 = .command (.crcUpd 0x81) := by decide
theorem test_decode_crcBuf : decode 0b0010001000000000#16 = .command .crcBuf := by decide
theorem test_decode_crcDig : decode 0b0010001100000011#16 = .command (.crcDig 3) := by decide
theorem test_decode_seqSet : decode 0b0011000001100011#16 = .command (.seqSet 99) := by decide
theorem test_decode_seqInc : decode 0b0011000100000000#16 = .command .seqInc := by decide
theorem test_decode_encRun : decode 0b0011001000000000#16 = .command .encRun := by decide
theorem test_decode_decRun : decode 0b0100000000000000#16 = .command .decRun := by decide
/-- V92, V93, V94 and the opcode before `RD`'s. -/
theorem test_decode_undefined : ([0x0000, 0xFF00, 0x3300, 0x00FF] : List CmdWord).map decode =
    List.replicate 4 (.illegal .undefinedOpcode) := by decide
/-- V65, V87, V91 and the other format N rows. -/
theorem test_decode_operandNotZero : ([0x1001, 0x2080, 0x22FF, 0x3110, 0x3201, 0x4001] : List CmdWord).map decode =
    List.replicate 6 (.illegal .operandNotZero) := by decide
theorem test_tableWord : decodeTableWord 16 0x1141 = some (.bufPush 0x41) ∧ decodeTableWord 16 0x3201 = none ∧
    decodeTableWord 32 0x11141 = none := by decide

/-! ### The pure functions -/

/-- V6, V10, V11 (the catalogue's check value), V16. -/
theorem test_crc16 : crc16 [0x41] = 0x58E5 ∧ crc16 [0x61, 0x62, 0x63] = 0x9DD6 ∧
    crc16 (ascii "123456789".toList) = 0x31C3 ∧ crc16 (List.replicate 27 0) = 0 := by decide +kernel
/-- V20 to V26. -/
theorem test_dec : dec2 7 = [0x30, 0x37] ∧ dec2 99 = [0x39, 0x39] ∧ dec5 7 = [0x30, 0x30, 0x30, 0x30, 0x37] ∧
    dec5 65535 = [0x36, 0x35, 0x35, 0x33, 0x35] := by decide
/-- The tags of section 3 read back. -/
theorem test_tagNumber : tagNumber [0x30, 0x37] = some 7 ∧ tagNumber [0x31, 0x47] = none ∧ tagNumber [0x30, 0x3A] = none ∧
    tagNumber [0x2F, 0x30] = none ∧ tagNumber [0x20, 0x37] = none := by decide
/-- V28, V35, V36. -/
theorem test_encodeFrame : encodeFrame [] 99 = ascii "9906263".toList ∧
    encodeFrame [0xF9, 0x4D] 0 = [0xF9, 0x4D] ++ ascii "000000000".toList.tail.tail ∧
    encodeFrame [0xAD, 0x7A] 0 = [0xAD, 0x7A] ++ ascii "0065535".toList := by decide +kernel

/-! ### The commands, one step each -/

/-- V60, V61. -/
theorem test_rd : rspTo 0x0100 .reset = some (0, 0x0000) ∧ rspTo 0x0106 .reset = some (0, 0x007F) := by decide
/-- V62, V63. -/
theorem test_rd_reserved : refusedAs 0x0107 2 (filled 3) = true ∧ refusedAs 0x01FF 2 .reset = true := by decide
/-- V64. -/
theorem test_bufClr : (onWord 0x1000 ((holding aFrame).withCrc 0x195B)).map (fun t => (t.buf, t.crc, lastRsp t)) =
    some ([], 0x195B, some (0, 0)) := by decide
/-- V66, V67. -/
theorem test_bufPush : (onWord 0x1141 .reset).map (fun t => (t.buf, lenReg t)) = some ([0x41], 1) ∧
    (onWord 0x1142 (filled 31)).map (fun t => (lenReg t, readByte t 31)) = some (32, some 0x42) := by decide
/-- V68. -/
theorem test_bufPush_full : refusedAs 0x1142 3 (filled 32) = true := by decide
/-- V70. -/
theorem test_bufRd : rspTo 0x1207 (holding aFrame) = some (0, 0x0031) := by decide
/-- V69, V71, V72. -/
theorem test_bufRd_index : refusedAs 0x1200 4 .reset = true ∧ refusedAs 0x1208 4 (holding aFrame) = true ∧
    refusedAs 0x1220 4 (filled 32) = true := by decide
/-- V73. -/
theorem test_crcClr : (onWord 0x2000 (State.reset.withCrc 0x58E5)).map State.crc = some 0 := by decide
/-- V74, V75. -/
theorem test_crcUpd : (onWord 0x2141 .reset).map State.crc = some 0x58E5 ∧
    (onWord 0x2130 (State.reset.withCrc 0x58E5)).map State.crc = some 0x08AE := by decide +kernel
/-- V77, V78. -/
theorem test_crcBuf : (onWord 0x2200 ((holding (ascii "123456789".toList)).withCrc 0xABCD)).map State.crc = some 0x31C3 ∧
    (onWord 0x2200 (State.reset.withCrc 0xABCD)).map State.crc = some 0 := by decide +kernel
/-- V79, V80. -/
theorem test_crcDig : ([0x2300, 0x2301, 0x2302, 0x2303, 0x2304] : List CmdWord).map (rspTo · (State.reset.withCrc 0x31C3)) =
    ([0x31, 0x32, 0x37, 0x33, 0x39] : List Half).map (fun d => some (0, d)) ∧ refusedAs 0x2305 4 .reset = true := by decide
/-- V81. -/
theorem test_seqSet : (onWord 0x3063 .reset).map State.seq = some 99 ∧
    refusedAs 0x3064 5 (State.reset.withSeq 99) = true := by decide
/-- V82. -/
theorem test_seqInc : (onWord 0x3100 (State.reset.withSeq 99)).map (fun t => (t.seq, lastRsp t)) = some (0, some (0, 0)) ∧
    (onWord 0x3100 .reset).map (fun t => (t.seq, lastRsp t)) = some (1, some (0, 1)) := by decide
/-- V83. -/
theorem test_encRun : (onWord 0x3200 (holding (ascii "Hello".toList))).map (fun t => (t.buf, t.crc, t.seq, lastRsp t)) =
    some (helloFrame, 0x52D3, 0, some (0, 0x000C)) := by decide +kernel
/-- V85, V86. -/
theorem test_encRun_bounds : (onWord 0x3200 ((holding ((List.range 25).map (BitVec.ofNat 8))).withSeq 42)).map
      (fun t => (t.crc, lastRsp t)) = some (0x3B58, some (0, 0x0020)) ∧ refusedAs 0x3200 6 (filled 26) = true := by
  decide +kernel
/-- V40 (V88), V43, V52. -/
theorem test_decRun : (onWord 0x4000 (holding helloFrame)).map decodeResults = some [0x0003, 5, 0x3030, 0, 0x52D3] ∧
    (onWord 0x4000 (holding ackGood)).map decodeResults = some [0x0000, 0, 0x3147, 127, 0x0E87] ∧
    (onWord 0x4000 (holding (ascii "xyZZ39908".toList))).map decodeResults = some [0x0001, 2, 0x5A5A, 127, 0x9BE4] := by
  decide +kernel
/-- V50, with `CRC` unchanged, and V55. -/
theorem test_decRun_bounds : (onWord 0x4000 ((holding (ascii "123456".toList)).withCrc 0xABCD)).map decodeResults =
      some [0x0004, 0, 0x0000, 127, 0xABCD] ∧
    (onWord 0x4000 (filled 32)).map decodeResults = some [0x0000, 25, 0x4141, 127, 0x07BF] := by decide +kernel
/-- V92, V87. -/
theorem test_illegal : refusedAs 0x0000 1 (filled 3) = true ∧ refusedAs 0x3201 1 (filled 30) = true := by decide
/-- R160: a reset event gives no response. -/
theorem test_reset : nextOf (step ((filled 3).withHostq [.reset, .command 0x0100])) =
    some (State.reset.withHostq [.command 0x0100]) := by decide

/-! ### Around the step -/

/-- R76. -/
theorem test_assemble : assembleLine "BUF.PUSH 'A'".toList = .command (.bufPush 0x41) ∧
    assembleLine "  SEQ.SET 0x2A ; the tag".toList = .command (.seqSet 42) ∧
    assembleLine "RD LEN".toList = .command (.rd 1) ∧ assembleLine "ENC.RUN 1".toList = .malformed := by decide +kernel
/-- S3: a file of 60 bytes is three chunks of 25, 25 and 10. -/
theorem test_chunksOf : (chunksOf (List.replicate 60 0x41)).map List.length = [25, 25, 10] := by decide +kernel
/-- R13's binary form of a number, as an operand (log entry 15). -/
theorem test_assemble_binary : assembleLine "SEQ.SET 0b101010".toList = .command (.seqSet 42) ∧
    assembleLine "SEQ.SET 0b2".toList = .malformed := by decide +kernel
/-- R188 (4): a frame whose checksum does not match is answered `ACK_BAD`. -/
theorem test_receiver_rejects (h : HostParams) (hm : isEndMarker h (holding helloFrame) = false) :
    receiverStep h .start (holding helloFrame) = (.start, some ackBad) := by
  have hv : validFlag (holding helloFrame).status = false := rfl
  simp [receiverStep_listening, receiverVerdict, hm, hv, repeatsTag_of_not_marker, Receiver.start, receiverAct]
/-- R188: a receiver that has stopped listening does not answer even an end marker. -/
theorem test_receiver_finalized (h : HostParams) (s : State) :
    receiverStep h ⟨none, [], true⟩ s = (⟨none, [], true⟩, none) := rfl
/-- A host whose parameters are made up for the tests and witnesses below. -/
def madeUpHost : HostParams := ⟨[0x45], [0x46], .raw, .reject, .reject, 0, 0, 0, 0⟩

/-- The same with a framed marker. -/
def framedHost : HostParams := { madeUpHost with endMarkerPayload := .framed }

/-- R132: a short frame carries no tag, not even for a receiver that accepted the tag bytes 00 00 (log entry 20). -/
theorem test_receiver_short : receiverStep madeUpHost ⟨some 0, [], false⟩ ((holding [0x41]).withDecode 4 0 0 127) =
    (⟨some 0, [], false⟩, some ackBad) := by decide +kernel
/-- R181: a frame is read out with `RD LEN` and `BUF.RD 0 .. LEN-1`. -/
theorem test_readOut : readOut (holding [0x41, 0x42]) = [.rd 1, .bufRd 0, .bufRd 1] ∧
    (handOver (holding [0x41, 0x42]) .buffer).2 = some [0x41, 0x42] := by decide +kernel
/-- R181: the link gives at most 32 bytes. -/
theorem test_link_limit : linkGives (.alter (List.replicate 33 0x41)) [] = none ∧
    linkGives (.alter (List.replicate 32 0x41)) [] = some (List.replicate 32 0x41) := by decide +kernel

/-! ### Witnesses: states and operands that meet the statements' hypotheses -/

theorem witness_EveryWordDecodesAsR71Says : decode 0x01FF = .command (.rd 255) ∧
    decode 0x41FF = .illegal .undefinedOpcode ∧ decode 0x4001 = .illegal .operandNotZero := by decide

theorem witness_CommandOfTheMatchingRow : (⟨0x40, .N, 0x4000, 0xFFFF⟩ : OpcodeRow) ∈ opcodeTable ∧
    (0x4000 : CmdWord) &&& 0xFFFF = 0x4000 ∧ decode 0x4000 = .command .decRun := by decide

theorem witness_AssembledTextIsTheCommand : (0 : Fin 128).val ≠ 10 ∧ (0 : Fin 128).val ≠ 13 ∧ (127 : Fin 128).val ≠ 10 ∧
    (127 : Fin 128).val ≠ 13 := by decide

theorem witness_StepRunsDecodedCommand : (offer 0x1141 State.reset).hostq = .command 0x1141 :: [] ∧
    decode 0x1141 = .command (.bufPush 0x41) := by decide

theorem witness_ResetLeavesStatedValues : ((filled 3).withHostq [.reset]).hostq = .reset :: [] := rfl

theorem witness_IdleUnitStaysAsItIs : (filled 3).hostq = [] := rfl

/-- A command that executes and one that is refused, at the fullest buffer. -/
theorem witness_EveryCommandGetsOneResponse : (filled 32).buf.length ≤ 32 ∧ rspTo 0x0101 (filled 32) = some (0, 32) ∧
    rspTo 0x1141 (filled 32) = some (3, 0x1141) := by decide

theorem witness_HostQueueDrains :
    2 ≤ (State.reset.withHostq [.command 0x1141, .reset, .command 0xFFFF]).hostq.length := by decide

theorem witness_OnlyTheEightItemsMatter : SameUnit (filled 3) ((filled 3).emit 0x12345) ∧
    ((filled 3).emit 0x12345).hostq = (filled 3).hostq := ⟨⟨rfl, rfl, rfl, rfl, rfl, rfl, rfl⟩, rfl⟩

/-- The reset unit with the shortest or the longest buffer has the invariant. -/
theorem witness_inv (bs : List Byte) (h : bs.length ≤ 32) : (holding bs).Inv :=
  let r : (filled 0).Inv := ⟨by decide, by decide, by decide, by decide, by decide, by decide, by decide, by decide⟩
  ⟨h, r.2, r.3, r.4, r.5, r.6, r.7, r.8⟩

theorem witness_StepKeepsR31Invariant : (offer 0x1141 (filled 31)).Inv ∧
    step (offer 0x1141 (filled 31)) = .next ((filled 32).emit (rspWord 0 0)) :=
  ⟨(witness_inv (filled 31).buf (by decide)).of_sameUnit ⟨rfl, rfl, rfl, rfl, rfl, rfl, rfl⟩, rfl⟩

/-- A reachable state with `SHORT = 1`: `DEC.RUN` right after reset (V89). -/
theorem witness_ReachableStatesMeetR31 : ∃ s, Reachable s ∧ s.status.getLsbD 2 = true :=
  ⟨_, .step (.reset [.command 0x4000]) rfl, rfl⟩

theorem witness_RdRespondsRegister : (filled 32).Inv ∧ (filled 32).buf.length ≤ 32 ∧ 7 ≤ (7 : Byte).toNat ∧
    (6 : Byte).toNat ≤ 6 := ⟨witness_inv _ (by decide), by decide, by decide, by decide⟩

theorem witness_BufClrEmptiesBuffer : (1 : Byte) ≠ 0 ∧ exec .bufClr (filled 3) = .next ((filled 0).emit (rspWord 0 0)) :=
  ⟨by decide, rfl⟩

theorem witness_BufPushAppendsByte : (filled 31).buf.length < 32 ∧ (filled 32).buf.length = 32 := by decide

theorem witness_BufRdRespondsByte : (31 : Byte).toNat < (filled 32).buf.length ∧ (filled 0).buf.length ≤ (0 : Byte).toNat ∧
    (filled 32).buf.length ≤ 32 ∧ 32 ≤ (32 : Byte).toNat := by decide

theorem witness_CrcBufCoversWholeBuffer : (filled 0).buf = [] ∧ (1 : Byte) ≠ 0 := by decide

theorem witness_CrcDigRespondsDigit : (4 : Byte).toNat < 5 ∧ 5 ≤ (5 : Byte).toNat := by decide

theorem witness_SeqSetWritesTag : (99 : Byte).toNat ≤ 99 ∧ 100 ≤ (100 : Byte).toNat := by decide

theorem witness_SeqIncAdvancesModulo100 : (State.reset.withSeq 99).seq.toNat ≤ 99 ∧ 0 < 99 ∧ 99 < 100 := by decide

theorem witness_EncRunWritesFrame : (filled 25).buf.length ≤ 25 ∧ ((filled 25).withSeq 99).seq.toNat ≤ 99 ∧
    25 < (filled 26).buf.length := by decide

theorem witness_DecRunReportsVerdict : (filled 6).buf.length < 7 ∧ 7 ≤ (filled 7).buf.length ∧
    (filled 32).buf.length ≤ 32 := by decide

theorem witness_ReadsHaveNoSideEffect : Instr.crcDig 255 ∈ [Instr.rd 255, .bufRd 255, .crcDig 255] := by decide

/-- One executed and one refused form each. -/
theorem witness_RegisterCommandsFrame : exec .crcBuf (filled 0) = .next ((filled 0).emit (rspWord 0 0)) ∧
    exec (.seqSet 100) (filled 0) = .next ((filled 0).emit (rspWord 5 0x3064)) ∧
    ∃ t, exec .decRun (filled 6) = .next t ∧ (filled 6).buf.length < 7 := ⟨rfl, rfl, _, rfl, by decide⟩

theorem witness_StoringCommandsFrame : exec (.bufPush 0x41) (filled 31) = .next ((filled 32).emit (rspWord 0 0)) ∧
    (filled 31).buf.length < 32 ∧ 30 ≠ appendIndex (filled 31) ∧
    exec (.bufPush 0x41) (filled 32) = .next ((filled 32).emit (rspWord 3 0x1141)) ∧ 32 ≤ (filled 32).buf.length ∧
    exec .encRun (filled 26) = .next ((filled 26).emit (rspWord 6 0x3200)) ∧ 25 < (filled 26).buf.length ∧
    (∃ t, exec .encRun (filled 25) = .next t) ∧ 24 < appendIndex (filled 25) ∧ appendIndex (filled 25) + 7 ≤ 32 :=
  ⟨rfl, by decide, by decide, rfl, by decide, rfl, by decide, ⟨_, rfl⟩, by decide, by decide⟩

/-- A command that changes each item. -/
theorem witness_OnlyListedCommandsWrite : (onWord 0x1141 .reset).map (fun t => t.buf != []) = some true ∧
    (onWord 0x3100 .reset).map (fun t => t.seq != 0) = some true ∧
    (onWord 0x2141 .reset).map (fun t => t.crc != 0) = some true ∧
    (onWord 0x4000 .reset).map (fun t => t.status != 0) = some true := by decide +kernel

theorem witness_NoCommandChangesAStoredByte : readByte (filled 32) 31 = some 0x41 ∧
    step (offer 0x1141 (filled 32)) = .next ((filled 32).emit (rspWord 3 0x1141)) := ⟨by decide, rfl⟩

theorem witness_RefusalChangesNothing : step (offer 0x1141 (filled 32)) = .next ((filled 32).emit (rspWord 3 0x1141)) ∧
    ((filled 32).emit (rspWord 3 0x1141)).rsps = (filled 32).rsps ++ [rspWord 3 0x1141] ∧
    rspCode (rspWord 3 0x1141) ≠ 0 := ⟨rfl, rfl, by decide⟩

theorem witness_ResponseCodesAreTheTables : (filled 32).buf.length ≤ 32 ∧ refusalTable 0x1141 (filled 32) = 3 ∧
    refusalTable 0x3200 (filled 26) = 6 ∧ refusalTable 0x3200 (filled 25) = 0 := by decide

theorem witness_DecodeRefusalComesFirst : (1 : Byte) ≠ 0 ∧ (filled 30).buf.length = 30 := by decide

theorem witness_SharedCrcIsOverwrittenUnread : (filled 25).buf.length ≤ 25 ∧ 7 ≤ (filled 7).buf.length ∧
    (∃ t, exec .crcBuf (filled 7) = .next t) ∧ (∃ t, exec .encRun (filled 25) = .next t) ∧
    (∃ t, exec .decRun (filled 7) = .next t) ∧ ∃ t, exec (.crcUpd 0x41) (filled 7) = .next t :=
  ⟨by decide, by decide, ⟨_, rfl⟩, ⟨_, rfl⟩, ⟨_, rfl⟩, _, rfl⟩

theorem witness_DecodeResultsStayUntilDecRun : Instr.decRun ∉ [Instr.bufClr, .encRun] ∧
    ∃ t, execAll [.bufClr, .encRun] (holding aFrame) = .next t := ⟨by decide, _, rfl⟩

theorem witness_RerunningCommands : (filled 18).buf.length ≤ 18 ∧ 18 < (filled 19).buf.length ∧
    (filled 25).buf.length ≤ 25 ∧ (∃ t, execAll [.encRun, .encRun] (filled 18) = .next t) ∧
    (∃ t, execAll [.encRun, .encRun] (filled 19) = .next t) ∧
    exec .seqInc (filled 0) = .next (((filled 0).withSeq 1).emit (rspWord 0 1)) :=
  ⟨by decide, by decide, by decide, ⟨_, rfl⟩, ⟨_, rfl⟩, rfl⟩

theorem witness_Dec2IsTwoDigits : 0 ≤ 99 ∧ 99 ≤ 99 := by decide

theorem witness_Dec5IsFiveDigitsInjective : 4 < 5 ∧ dec5 0xFFFF = dec5 65535 ∧ (ascii "65535".toList).length = 5 ∧
    (ascii "65535".toList).foldl (fun n b => 10 * n + (b.toNat - 0x30)) 0 ≤ 65535 := by decide +kernel

/-- The digits at both ends, and `ACK_GOOD` as a buffer whose tag is no number (V43). -/
theorem witness_TagReadsBack : (0x30 ≤ (0x30 : Byte).toNat ∧ (0x39 : Byte).toNat ≤ 0x39) ∧ notNumeric 0x31 0x47 ∧
    notNumeric 0x2F 0x30 ∧ (holding ackGood).buf = [] ++ [0x31, 0x47] ++ [0x55, 0x54, 0x41, 0x43, 0x4B] := by
  unfold notNumeric; decide

theorem witness_DecodeOfEncodedFrame : (List.replicate 25 (0x41 : Byte)).length ≤ 25 ∧ 99 ≤ 99 := by decide

theorem witness_EncoderOutputValidates : ((filled 25).withSeq 99).buf.length ≤ 25 ∧
    ((filled 25).withSeq 99).seq.toNat ≤ 99 ∧ ((filled 25).withCrc 1).buf = (filled 25).buf ∧
    (∃ t, exec .encRun (filled 25) = .next t) ∧ ∃ t, exec .encRun ((filled 25).withCrc 1) = .next t :=
  ⟨by decide, by decide, rfl, ⟨_, rfl⟩, _, rfl⟩

/-- V52: "xyZZ39908". -/
theorem witness_ValidWithoutNumericTag : ([0x78, 0x79] : List Byte).length ≤ 25 ∧ notNumeric 0x5A 0x5A ∧
    (holding (ascii "xyZZ39908".toList)).buf =
      [0x78, 0x79] ++ [0x5A, 0x5A] ++ dec5 (crc16 ([0x78, 0x79] ++ [0x5A, 0x5A])) := by
  unfold notNumeric; decide +kernel

theorem witness_SingleBitFlipIsDetected : 7 ≤ (holding aFrame).buf.length ∧ (holding aFrame).buf.length ≤ 32 ∧
    (nextOf (exec .decRun (holding aFrame))).map (fun t => validFlag t.status) = some true ∧
    7 < (holding aFrame).buf.length := by decide +kernel

theorem witness_LeadingZeroIsInvisible : 7 ≤ (filled 7).buf.length ∧ (filled 31).buf.length < 32 ∧
    ∃ t, exec .decRun (filled 31) = .next t := ⟨by decide, by decide, _, rfl⟩

theorem witness_CrcIsLinear : ([0x41, 0x42] : List Byte).length = ([0xFF, 0x00] : List Byte).length := rfl

theorem witness_PseudoCommandsDoAsR77Says : (List.replicate 32 (0x41 : Byte)).length ≤ 32 ∧
    (List.replicate 25 (0x41 : Byte)).length ≤ 25 ∧ (99 : Byte).toNat ≤ 99 ∧ (filled 32).buf.length ≤ 32 := by decide

theorem witness_ThreeWaysToTheChecksumAgree : (List.replicate 32 (0x41 : Byte)).length ≤ 32 ∧
    (List.replicate 25 (0x41 : Byte)).length ≤ 25 ∧ (0 : Byte).toNat ≤ 99 := by decide

theorem witness_ChunkingKeepsTheFile : List.replicate 25 0x41 ∈ (chunksOf (List.replicate 26 0x41)).dropLast ∧
    (chunksOf (List.replicate 26 0x41)).getLast? = some [0x41] := by decide +kernel

/-- "Hello0021203" decoded (V30's frame): valid, chunk of 5 bytes, tag "00". -/
def helloDecoded : State := (holding helloFrame).withDecode 3 5 0x3030 0

/-- Both second premises, a numeric tag and a host that accepts any, at a receiver that has accepted nothing yet. -/
theorem witness_DuplicateFrameAppendedOnce : Receiver.start.finalized = false ∧
    isEndMarker madeUpHost helloDecoded = false ∧ shortFlag helloDecoded.status = false ∧
    validFlag helloDecoded.status = true ∧ tagnumFlag helloDecoded.status = true ∧ Receiver.start.lastAcceptedTag ≠ some helloDecoded.tag ∧
    validFlag ((holding helloFrame).withDecode 1 5 0x5A5A 127).status = true ∧
    ({ madeUpHost with nonNumericTagVerdict := .accept }).nonNumericTagVerdict = .accept := by decide

/-- The wrap: the chunk after the one tagged 99. -/
theorem witness_NextChunkIsNoDuplicate : (State.reset.withSeq 99).seq.toNat ≤ 99 ∧ ([0x41] : List Byte).length ≤ 25 ∧
    (⟨some 0x3939, [], false⟩ : Receiver).finalized = false ∧
    (⟨some 0x3939, [], false⟩ : Receiver).lastAcceptedTag = some (tagWord (dec2 (State.reset.withSeq 99).seq.toNat)) ∧
    (nextOf (execAll (.seqInc :: loadCommands [0x41] ++ [.encRun]) (State.reset.withSeq 99))).map State.buf = some aFrame ∧
    (nextOf (execAll (expand (.decode aFrame)) State.reset)).map (isEndMarker madeUpHost) = some false := by decide +kernel

/-- A framed and a raw marker, a short frame, a duplicate, a new valid frame and an invalid one. -/
theorem witness_ReceiverCasesOfR188 : Receiver.start.finalized = false ∧
    (framedHost.endMarkerPayload = .framed ∧
      decodedChunk ((holding [0x45]).withDecode 3 1 0x3030 0) = framedHost.endMarker ∧
      Receiver.start.lastAcceptedTag ≠ some ((holding [0x45]).withDecode 3 1 0x3030 0).tag) ∧
    (madeUpHost.endMarkerPayload = .raw ∧ (holding [0x45]).buf = madeUpHost.endMarker) ∧
    (isEndMarker madeUpHost ((holding [0x41]).withDecode 4 0 0 127) = false ∧
      shortFlag ((holding [0x41]).withDecode 4 0 0 127).status = true ∧
      validFlag ((holding [0x41]).withDecode 4 0 0 127).status = false) ∧
    (isEndMarker madeUpHost helloDecoded = false ∧ shortFlag helloDecoded.status = false ∧
      (⟨some 0x3030, [], false⟩ : Receiver).lastAcceptedTag = some helloDecoded.tag) ∧
    (Receiver.start.lastAcceptedTag ≠ some helloDecoded.tag ∧ validFlag helloDecoded.status = true ∧
      tagnumFlag helloDecoded.status = true) ∧
    (isEndMarker madeUpHost (holding helloFrame) = false ∧ validFlag (holding helloFrame).status = false) ∧
    (⟨none, [], true⟩ : Receiver).finalized = true := by decide

/-- A session at the chunk tagged `n`, the receiver fresh. -/
def sessionAt (phase : SenderPhase) (n : BitVec 7) : Session :=
  { Session.start (some []) with sender := ⟨phase, [[0x41]]⟩, senderUnit := State.reset.withSeq n }

/-- The tag at the wrap; a frame lost, an answer lost, and an answer `ACK_BAD`. -/
theorem witness_RetryConvergence : (sessionAt .sendingChunk 99).sender = ⟨.sendingChunk, [0x41] :: []⟩ ∧
    ([0x41] : List Byte).length ≤ 25 ∧ (sessionAt .sendingChunk 99).senderUnit.seq.toNat = 99 ∧
    (sessionAt .sendingChunk 99).receiver.finalized = false ∧
    (sessionAt .sendingChunk 99).receiver.lastAcceptedTag ≠ some (tagWord (dec2 99)) ∧
    ¬ chunkIsMarker madeUpHost [0x41] 99 ∧ ¬ chunkIsMarker framedHost [0x41] 99 ∧
    (∀ l ∈ [(LinkAction.drop, LinkAction.deliver), (.deliver, .drop), (.deliver, .alter ackBad)],
      l.1 = .drop ∨ (l.1 = .deliver ∧ answerLost ackGood l.2)) :=
  ⟨rfl, by decide, rfl, rfl, by decide, by show ¬ encodeFrame [0x41] 99 = [0x45]; decide +kernel,
    by show ¬ ([0x41] : List Byte) = [0x45]; decide, by simp [answerLost, ackGood, ackBad]⟩

/-- The one chunk of the file "A" is no framed marker. -/
theorem fileA_no_marker : chunksOf ((some [0x41] : Option (List Byte)).getD []) = [[0x41]] ∧
    ∀ (i : Nat) (c : List Byte), ([[0x41]] : List (List Byte))[i]? = some c → ¬ chunkIsMarker framedHost c (i % 100) := by
  refine ⟨by decide, fun i c hc => ?_⟩
  obtain rfl : c = [0x41] := List.mem_singleton.mp (List.mem_of_getElem? hc)
  exact fun hm : ([0x41] : List Byte) = [0x45] => by simp at hm

/-- The file "A"; a missing file, for a raw marker; a file of 60 bytes. -/
theorem witness_EndToEndReconstructsFile : hostParamsWf framedHost = true ∧
    (chunksOf ((some [0x41] : Option (List Byte)).getD []) = [[0x41]] ∧
      ∀ (i : Nat) (c : List Byte), ([[0x41]] : List (List Byte))[i]? = some c → ¬ chunkIsMarker framedHost c (i % 100)) ∧
    hostParamsWf madeUpHost = true ∧ chunksOf ((none : Option (List Byte)).getD []) = [] ∧
    (List.replicate 60 (0x41 : Byte)).length = 60 := ⟨by decide, fileA_no_marker, by decide, by decide, by decide⟩

theorem witness_TerminationHandshake : hostParamsWf madeUpHost = true ∧
    (sessionAt .allSent 99).sender.phase = .allSent ∧ (sessionAt .allSent 99).senderUnit.seq.toNat = 99 ∧
    (sessionAt .allSent 99).receiver.finalized = false ∧
    (sessionAt .allSent 99).receiver.lastAcceptedTag ≠ some (tagWord (dec2 99)) ∧
    (∀ l ∈ [(LinkAction.drop, LinkAction.deliver)], l.1 = .drop) := by decide

theorem witness_FinalAckExactlyOnce : hostParamsWf madeUpHost = true ∧
    { Session.start none with receiver := ⟨none, [], true⟩ }.receiver.finalized = true := by decide

/-- The file "A" over a link that loses the first frame and the answer to the second, and then delivers both. -/
theorem witness_LossyTransferKeepsTheFile : hostParamsWf framedHost = true ∧
    (chunksOf ((some [0x41] : Option (List Byte)).getD []) = [[0x41]] ∧
      ∀ (i : Nat) (c : List Byte), ([[0x41]] : List (List Byte))[i]? = some c → ¬ chunkIsMarker framedHost c (i % 100)) ∧
    (∀ l ∈ [(LinkAction.drop, LinkAction.drop), (.deliver, .drop), (.deliver, .deliver)],
      l.1 = .deliver ∨ l.1 = .drop) := ⟨by decide, fileA_no_marker, by decide⟩

theorem witness_HostCarriesFramesByCommands : (filled 32).buf.length ≤ 32 ∧ Receiver.start.finalized = false ∧
    (List.replicate 32 (0x41 : Byte)).length ≤ 32 ∧
    (poll (linkGives (.alter (List.replicate 32 0x41)) [])).1 = some (List.replicate 32 0x41) := by decide +kernel

end Sys2Proof.Tests
end

section
/-! SUPPORT and O27. The response of a command looks at the unit's items only, so a response already given does not change the
next one. A read has no other effect, hence repeating it gives the same response. -/

namespace Sys2Proof.Machine

variable (i : Instr) (s : State) (x : RspWord)

/-- The response word of a command, executed or refused (R73, R141). -/
def responseTo (i : Instr) (s : State) : RspWord :=
  match refusedFor i s with
  | some c => rspWord (refusalCode c) (encode i)
  | none => rspWord 0 (answer i s)

@[simp] theorem readByte_emit (a : Nat) : readByte (s.emit x) a = readByte s a := rfl

@[simp] theorem regValue_emit : regValue (s.emit x) = regValue s := by
  funext r
  cases r <;> rfl

@[simp] theorem decoded_status_emit : (decoded (s.emit x)).status = (decoded s).status := by
  by_cases h : s.buf.length < 7
  · rw [decoded_of_short s h, decoded_of_short (s.emit x) h]; rfl
  · rw [decoded_of_long s (Nat.le_of_not_lt h), decoded_of_long (s.emit x) (Nat.le_of_not_lt h)]; rfl

/-- Whether a command is refused does not depend on earlier responses. -/
@[simp] theorem refusedFor_emit : refusedFor i (s.emit x) = refusedFor i s := by
  cases i <;> rfl

/-- The data of an answer does not depend on earlier responses. -/
@[simp] theorem answer_emit : answer i (s.emit x) = answer i s := by
  cases i with
  | rd r => simp only [answer, regValue_emit]
  | decRun => exact decoded_status_emit s x
  | bufClr | bufPush | bufRd | crcClr | crcUpd | crcBuf | crcDig | seqSet | seqInc | encRun => rfl

@[simp] theorem responseTo_emit : responseTo i (s.emit x) = responseTo i s := by
  simp only [responseTo, refusedFor_emit, answer_emit]

variable {i s}

/-- A command that executes without effect does nothing but respond, executed or refused. -/
theorem exec_of_effect_eq_self (h : effect i s = s) : exec i s = .next (s.emit (responseTo i s)) := by
  rw [exec_eq_after, after, responseTo]
  cases refusedFor i s with
  | some c => rfl
  | none => simp only [h]

/-- The three reads have no effect on the unit (R45). -/
theorem effect_of_mem_reads {k : Byte} (h : i ∈ [Instr.rd k, .bufRd k, .crcDig k]) (t : State) : effect i t = t := by
  simp only [List.mem_cons, List.not_mem_nil, or_false] at h
  obtain rfl | rfl | rfl := h <;> rfl

/-- Settles O27: a read only responds, and its response is the same after the one it just gave. -/
theorem readsHaveNoSideEffect : Obligations.ReadsHaveNoSideEffect := by
  intro k i s hi
  have reads : ∀ t, exec i t = .next (t.emit (responseTo i t)) := fun t =>
    exec_of_effect_eq_self (effect_of_mem_reads hi t)
  refine ⟨_, responseTo i s, _, reads s, rfl, readByte_emit s _, reads _, ?_⟩
  rw [responseTo_emit]
  rfl

end Sys2Proof.Machine
end

section
/-! SUPPORT, O2 and O3. What the decoder answers for a word, said once by the word's two fields (R71), and the rows of R70's
table as an opcode and a format. -/

namespace Sys2Proof

variable {w : CmdWord} {i : Instr} {d : Decoded} {row : OpcodeRow}

/-! ### The decoder's answer -/

/-- The twelve opcodes of R70. -/
def opcodes : List Nat := [0x01, 0x10, 0x11, 0x12, 0x20, 0x21, 0x22, 0x23, 0x30, 0x31, 0x32, 0x40]

/-- The six opcodes of format N (R70). -/
def noOperandOpcodes : List Nat := [0x10, 0x20, 0x22, 0x31, 0x32, 0x40]

/-- What R71 asks of a word for each answer of the decoder. -/
def DecodesAs (w : CmdWord) : Decoded → Prop
  | .command i => w = encode i
  | .illegal .operandNotZero => (opField w).toNat ∈ noOperandOpcodes ∧ argField w ≠ 0
  | .illegal .undefinedOpcode => (opField w).toNat ∉ opcodes

theorem opcodeOf_mem_opcodes (i : Instr) : (opcodeOf i).toNat ∈ opcodes := by
  cases i <;> simp [opcodeOf, opcodes]

theorem opcodeOf_mem_noOperandOpcodes_iff (i : Instr) : (opcodeOf i).toNat ∈ noOperandOpcodes ↔ formatOf i = .N := by
  cases i <;> simp [opcodeOf, formatOf, noOperandOpcodes]

theorem noOperandOpcodes_subset_opcodes : noOperandOpcodes ⊆ opcodes := by decide

theorem operandOf_of_formatN (h : formatOf i = .N) : operandOf i = 0 := by
  cases i with
  | rd | bufPush | bufRd | crcUpd | crcDig | seqSet => cases h
  | bufClr | crcClr | crcBuf | seqInc | encRun | decRun => rfl

theorem decode_encode (i : Instr) : decode (encode i) = .command i := by
  cases i <;> simp [decode, opcodeOf, operandOf]

theorem eq_encode_iff_fields : w = encode i ↔ opField w = opcodeOf i ∧ argField w = operandOf i := by
  conv_lhs => rw [← opField_append_argField w]
  exact fields_inj

/-- Step 4 of R71, for a word with the opcode of a command that takes the word's operand. -/
theorem decodesAs_operand (hop : (opField w).toNat = (opcodeOf i).toNat) (harg : argField w = operandOf i) :
    DecodesAs w (.command i) := eq_encode_iff_fields.mpr ⟨BitVec.eq_of_toNat_eq hop, harg⟩

/-- Step 3 of R71, for a word with the opcode of a command of format N. -/
theorem decodesAs_noOperand (hop : (opField w).toNat = (opcodeOf i).toNat) (hN : formatOf i = .N) :
    DecodesAs w (noOperand (argField w) i) := by
  unfold noOperand
  split
  next harg => exact decodesAs_operand hop (harg.trans (operandOf_of_formatN hN).symm)
  next harg => exact ⟨hop ▸ (opcodeOf_mem_noOperandOpcodes_iff i).mpr hN, harg⟩

theorem decodesAs_decode (w : CmdWord) : DecodesAs w (decode w) := by
  unfold decode
  split
  case h_1 hop => exact decodesAs_operand hop rfl
  case h_2 hop => exact decodesAs_noOperand hop rfl
  case h_3 hop => exact decodesAs_operand hop rfl
  case h_4 hop => exact decodesAs_operand hop rfl
  case h_5 hop => exact decodesAs_noOperand hop rfl
  case h_6 hop => exact decodesAs_operand hop rfl
  case h_7 hop => exact decodesAs_noOperand hop rfl
  case h_8 hop => exact decodesAs_operand hop rfl
  case h_9 hop => exact decodesAs_operand hop rfl
  case h_10 hop => exact decodesAs_noOperand hop rfl
  case h_11 hop => exact decodesAs_noOperand hop rfl
  case h_12 hop => exact decodesAs_noOperand hop rfl
  case h_13 => simp_all [DecodesAs, opcodes]

theorem not_decodesAs_illegal_encode (i : Instr) (why : IllegalWord) : ¬ DecodesAs (encode i) (.illegal why) := by
  cases why with
  | undefinedOpcode => exact fun hop => hop (opField_encode i ▸ opcodeOf_mem_opcodes i)
  | operandNotZero =>
    rintro ⟨hop, harg⟩
    rw [opField_encode, opcodeOf_mem_noOperandOpcodes_iff] at hop
    exact harg ((argField_encode i).trans (operandOf_of_formatN hop))

/-- What R71 asks for determines the answer: its three cases exclude one another. -/
theorem decode_eq_iff_decodesAs : decode w = d ↔ DecodesAs w d := by
  refine ⟨fun h => h ▸ decodesAs_decode w, fun h => ?_⟩
  cases d with
  | command i => exact h ▸ decode_encode i
  | illegal why =>
    have hw := decodesAs_decode w
    cases hd : decode w with
    | command j =>
      rw [hd] at hw
      exact absurd (hw ▸ h) (not_decodesAs_illegal_encode j why)
    | illegal why' =>
      rw [hd] at hw
      match why, why', h, hw with
      | .undefinedOpcode, .undefinedOpcode, _, _ => rfl
      | .operandNotZero, .operandNotZero, _, _ => rfl
      | .undefinedOpcode, .operandNotZero, hop, ⟨hop', _⟩ => exact absurd (noOperandOpcodes_subset_opcodes hop') hop
      | .operandNotZero, .undefinedOpcode, ⟨hop', _⟩, hop => exact absurd (noOperandOpcodes_subset_opcodes hop') hop

theorem decode_eq_command_iff : decode w = .command i ↔ w = encode i := decode_eq_iff_decodesAs

/-- A word is illegal exactly when it is no command's word. -/
theorem decode_illegal_iff : (∃ why, decode w = .illegal why) ↔ ∀ i, decode w ≠ .command i := by
  cases decode w <;> simp

/-! ### The table's rows -/

theorem mask_of_mem_table : ∀ row ∈ opcodeTable, row.matchBits = (row.op ++ 0x00#8 : CmdWord) ∧
    row.mask = if row.format = .N then 0xFFFF else 0xFF00 := by decide

theorem nodup_table_ops : (opcodeTable.map OpcodeRow.op).Nodup := by decide

theorem exists_row_of_command (i : Instr) : ∃ row ∈ opcodeTable, opcodeOf i = row.op ∧ formatOf i = row.format := by
  cases i <;> simp [opcodeTable, opcodeOf, formatOf]

/-- A row has a command for every operand its format admits. -/
theorem exists_command_of_row (hrow : row ∈ opcodeTable) (arg : Byte) (harg : row.format = .N → arg = 0) :
    ∃ i, opcodeOf i = row.op ∧ formatOf i = row.format ∧ operandOf i = arg := by
  simp only [opcodeTable, List.mem_cons, List.not_mem_nil, or_false] at hrow
  obtain rfl | rfl | rfl | rfl | rfl | rfl | rfl | rfl | rfl | rfl | rfl | rfl := hrow
  · exact ⟨.rd arg, rfl, rfl, rfl⟩
  · exact ⟨.bufClr, rfl, rfl, (harg rfl).symm⟩
  · exact ⟨.bufPush arg, rfl, rfl, rfl⟩
  · exact ⟨.bufRd arg, rfl, rfl, rfl⟩
  · exact ⟨.crcClr, rfl, rfl, (harg rfl).symm⟩
  · exact ⟨.crcUpd arg, rfl, rfl, rfl⟩
  · exact ⟨.crcBuf, rfl, rfl, (harg rfl).symm⟩
  · exact ⟨.crcDig arg, rfl, rfl, rfl⟩
  · exact ⟨.seqSet arg, rfl, rfl, rfl⟩
  · exact ⟨.seqInc, rfl, rfl, (harg rfl).symm⟩
  · exact ⟨.encRun, rfl, rfl, (harg rfl).symm⟩
  · exact ⟨.decRun, rfl, rfl, (harg rfl).symm⟩

/-- A row's mask and match ask for its opcode, and in format N for a zero operand. -/
theorem mem_matchingRows_iff_fields : row ∈ matchingRows w ↔
    row ∈ opcodeTable ∧ opField w = row.op ∧ (row.format = .N → argField w = 0) := by
  rw [matchingRows, List.mem_filter, beq_iff_eq]
  refine and_congr_right fun hrow => ?_
  obtain ⟨hmatch, hmask⟩ := mask_of_mem_table row hrow
  rw [hmask]
  split
  next hN => rw [match_fullMask w row.op hmatch, BitVec.toNat_inj]; simp [hN]
  next hN => rw [match_opcodeMask w row.op hmatch, BitVec.toNat_inj]; simp [hN]

theorem mem_matchingRows_iff_decode : row ∈ matchingRows w ↔
    row ∈ opcodeTable ∧ ∃ i, decode w = .command i ∧ opcodeOf i = row.op ∧ formatOf i = row.format := by
  rw [mem_matchingRows_iff_fields]
  refine and_congr_right fun hrow => ⟨fun ⟨hop, harg⟩ => ?_, fun ⟨i, hd, hop, hf⟩ => ?_⟩
  · obtain ⟨i, hi, hf, ha⟩ := exists_command_of_row hrow (argField w) harg
    exact ⟨i, decode_eq_command_iff.mpr (eq_encode_iff_fields.mpr ⟨hop.trans hi.symm, ha.symm⟩), hi, hf⟩
  · obtain rfl := decode_eq_command_iff.mp hd
    exact ⟨(opField_encode i).trans hop, fun hN => (argField_encode i).trans (operandOf_of_formatN (hf.trans hN))⟩

theorem matchingRows_eq_nil_iff : matchingRows w = [] ↔ ∀ i, decode w ≠ .command i := by
  simp only [List.eq_nil_iff_forall_not_mem, mem_matchingRows_iff_decode, not_and, not_exists]
  refine ⟨fun h i hd => ?_, fun h row _ i hd => absurd hd (h i)⟩
  obtain ⟨row, hrow, hop, hf⟩ := exists_row_of_command i
  exact h row hrow i hd hop hf

/-- All matching rows have the word's opcode, and no two rows of the table share one. -/
theorem length_matchingRows_le_one (w : CmdWord) : (matchingRows w).length ≤ 1 := by
  have hsame : (matchingRows w).map OpcodeRow.op = List.replicate (matchingRows w).length (opField w) :=
    List.map_eq_replicate_iff.mpr fun row hrow => (mem_matchingRows_iff_fields.mp hrow).2.1.symm
  have hnodup : ((matchingRows w).map OpcodeRow.op).Nodup := nodup_table_ops.sublist (List.filter_sublist.map _)
  rwa [hsame, List.nodup_replicate] at hnodup

/-! ### Masks and matches written out -/

/-- The mask 0x00FF keeps the operand alone. -/
theorem and_operandMask (w : CmdWord) : w &&& 0x00FF = (argField w).zeroExtend 16 := by
  apply BitVec.eq_of_getLsbD_eq
  intro i hi
  simp only [argField, BitVec.getLsbD_and, BitVec.getLsbD_setWidth, BitVec.getLsbD_extractLsb']
  interval_cases i <;> simp

/-- A row whose format has an operand, written out: its mask and match, and the operand in the low byte. -/
theorem decode_iff_opcodeMask (op : Byte) {m : CmdWord} (hop : opcodeOf i = op) (hm : m = (op ++ 0x00#8 : CmdWord)) :
    decode w = .command i ↔ w &&& 0xFF00 = m ∧ (operandOf i).zeroExtend 16 = w &&& 0x00FF := by
  rw [decode_eq_command_iff, eq_encode_iff_fields, match_opcodeMask w op hm, hop, and_operandMask, BitVec.toNat_inj]
  refine and_congr_right fun _ => ⟨fun h => h ▸ rfl, fun h => ?_⟩
  simpa using (congrArg (BitVec.truncate 8) h).symm

/-- A row of format N, written out. -/
theorem decode_iff_fullMask (op : Byte) {m : CmdWord} (hN : formatOf i = .N) (hop : opcodeOf i = op)
    (hm : m = (op ++ 0x00#8 : CmdWord)) :
    decode w = .command i ↔ w &&& 0xFFFF = m := by
  rw [decode_eq_command_iff, eq_encode_iff_fields, match_fullMask w op hm, hop, BitVec.toNat_inj,
    operandOf_of_formatN hN]

end Sys2Proof

namespace Sys2Proof.Machine

/-- Settles O2: the decoder's answers by the fields, the step each leads to, and the table's rows. -/
theorem everyWordDecodesAsR71Says : Obligations.EveryWordDecodesAsR71Says := by
  refine ⟨fun w => ?_, fun w => ?_, fun _ _ => decode_eq_command_iff, fun w i s h => ?_, fun w why s h => ?_,
    fun _ => decode_illegal_iff.trans matchingRows_eq_nil_iff.symm, length_matchingRows_le_one⟩
  · rw [← opField_toNat]
    exact decode_eq_iff_decodesAs
  · rw [← opField_toNat, ← argField_toNat]
    exact decode_eq_iff_decodesAs.trans (and_congr_right fun _ => BitVec.toNat_ne_iff_ne.symm)
  · rw [step_offer, execWord_command s h]
  · rw [step_offer, execWord_illegal s h]
    rfl

/-- Settles O3: each command by the mask and match of its row. -/
theorem commandOfTheMatchingRow : Obligations.CommandOfTheMatchingRow := by
  refine ⟨fun w => ⟨
    fun _ => decode_iff_opcodeMask 0x01 rfl rfl, decode_iff_fullMask 0x10 rfl rfl rfl,
    fun _ => decode_iff_opcodeMask 0x11 rfl rfl, fun _ => decode_iff_opcodeMask 0x12 rfl rfl,
    decode_iff_fullMask 0x20 rfl rfl rfl, fun _ => decode_iff_opcodeMask 0x21 rfl rfl,
    decode_iff_fullMask 0x22 rfl rfl rfl, fun _ => decode_iff_opcodeMask 0x23 rfl rfl,
    fun _ => decode_iff_opcodeMask 0x30 rfl rfl, decode_iff_fullMask 0x31 rfl rfl rfl,
    decode_iff_fullMask 0x32 rfl rfl rfl, decode_iff_fullMask 0x40 rfl rfl rfl, fun hop => ?_⟩,
    fun _ _ => mem_matchingRows_iff_decode⟩
  rw [← opField_toNat] at hop
  exact ⟨.undefinedOpcode, decode_eq_iff_decodesAs.mpr hop⟩

end Sys2Proof.Machine
end

section
/-! SUPPORT and O9. A word of the host gets one response, and the data of a command that executes is the value R73 names,
written out. -/

namespace Sys2Proof.Machine

variable {i : Instr} {s : State}

theorem lenReg_zeroExtend (hl : s.buf.length < 64) : (lenReg s).zeroExtend 16 = BitVec.ofNat 16 s.buf.length := by
  apply BitVec.eq_of_toNat_eq
  simp [lenReg]
  omega

theorem asciiDigit_zeroExtend (m : Nat) : (asciiDigit m).zeroExtend 16 = BitVec.ofNat 16 (0x30 + m % 10) := by
  apply BitVec.eq_of_toNat_eq
  simp [asciiDigit_toNat]

theorem dec5_getElem? (v : Half) {k : Nat} (hk : k < 5) : (dec5 v)[k]? = some (asciiDigit (v.toNat / 10 ^ (4 - k))) := by
  simp [dec5, decDigits, hk]

/-- The registers of R111 in the order of their numbers. -/
theorem regOperand_value {r : Byte} {x : Reg} (hx : regOperand r = some x) (hl : s.buf.length ≤ 32) (t : State) :
    regValue s x = executedData (.rd r) s t := by
  have hlen := lenReg_zeroExtend (s := s) (by omega)
  unfold regOperand at hx
  split at hx <;> cases hx <;> simp_all [regValue, executedData]

/-- The data of a command that executes is the value its rule responds with (R73, D24). -/
theorem answer_eq_executedData (hl : s.buf.length ≤ 32) (hr : refusedFor i s = none) :
    answer i s = executedData i s (effect i s) := by
  cases i with
  | rd r =>
    cases hx : regOperand r with
    | none => simp [refusedFor, hx] at hr
    | some x => simpa [answer, hx] using regOperand_value hx hl _
  | bufRd k => simp [answer, executedData, Memory.read, indexOperand]
  | crcDig k =>
    have hk : k.toNat < 5 := by
      by_contra hk
      simp [refusedFor, indexOperand, hk] at hr
    simp only [answer, executedData, indexOperand, dec5_getElem? _ hk, Option.getD_some, asciiDigit_zeroExtend]
  | encRun =>
    have hc : s.buf.length ≤ 25 := by
      by_contra hc
      simp [refusedFor, Nat.lt_of_not_le hc] at hr
    exact lenReg_zeroExtend (by simp; omega)
  | bufClr | bufPush | crcClr | crcUpd | crcBuf | seqSet | seqInc | decRun => rfl

/-- The responses given so far are no part of a command's data. -/
theorem executedData_emit (i : Instr) (s t : State) (x : RspWord) : executedData i s (t.emit x) = executedData i s t := by
  cases i <;> rfl

/-- A word is refused, changing nothing, or is a command that executes (R73, R141). -/
theorem execWord_cases (w : CmdWord) (s : State) :
    (∃ c, execWord w s = .next (s.emit (rspWord (refusalCode c) w))) ∨
    (∃ i, decode w = .command i ∧ refusedFor i s = none ∧
      execWord w s = .next ((effect i s).emit (rspWord 0 (answer i s)))) := by
  cases hd : decode w with
  | illegal why => exact .inl ⟨.illegalOp, execWord_illegal s hd⟩
  | command i =>
    rw [execWord_command s hd, exec_eq_after, after]
    cases hr : refusedFor i s with
    | none => exact .inr ⟨i, rfl, hr, rfl⟩
    | some c => exact .inl ⟨c, by rw [decode_eq_command_iff.mp hd]⟩

/-- Settles O9: a refused word is echoed with a code that is not 0, an executed one has its data under code 0. -/
theorem everyCommandGetsOneResponse : Obligations.EveryCommandGetsOneResponse := by
  intro w s hl
  rw [step_offer]
  obtain ⟨c, hw⟩ | ⟨i, hd, hr, hw⟩ := execWord_cases w s
  · exact ⟨_, refusalCode c, w, hw, rfl, rfl, fun h0 => absurd h0 (refusalCode_ne_zero c), fun _ => ⟨rfl, rfl⟩⟩
  · refine ⟨_, 0, answer i s, hw, ?_, effect_hostq s i, fun _ => ⟨i, hd, ?_⟩, fun h0 => absurd rfl h0⟩
    · rw [State.emit_rsps, effect_rsps]
    · rw [executedData_emit, answer_eq_executedData hl hr]

end Sys2Proof.Machine
end

section
/-! SUPPORT, O38 and O40. The tag of a frame as its two digits (R64), and what `DEC.RUN` reports of it (R66). -/

namespace Sys2Proof.Machine

variable {s : State} {t0 t1 : Byte} {n : Nat}

/-- The tens digit of a tag is not reduced modulo 10 (R64). -/
theorem dec2_of_le (hn : n ≤ 99) : dec2 n = [BitVec.ofNat 8 (0x30 + n / 10), BitVec.ofNat 8 (0x30 + n % 10)] := by
  rw [dec2_eq, asciiDigit, asciiDigit, Nat.mod_eq_of_lt (show n / 10 < 10 by omega)]

theorem tagNumber_dec2 (hn : n ≤ 99) : tagNumber (dec2 n) = some n := by
  rw [dec2_eq]
  simp only [tagNumber, isDigit_asciiDigit, digitVal_asciiDigit, Bool.and_self, if_true]
  congr 1
  omega

theorem notNumeric_iff : notNumeric t0 t1 ↔ ¬ (isDigit t0 = true ∧ isDigit t1 = true) := by
  rw [isDigit_iff, isDigit_iff, notNumeric]

theorem tagNumber_of_digits (h0 : isDigit t0 = true) (h1 : isDigit t1 = true) :
    tagNumber [t0, t1] = some (10 * digitVal t0 + digitVal t1) := by
  simp [tagNumber, h0, h1]

theorem tagNumber_of_notNumeric (h : notNumeric t0 t1) : tagNumber [t0, t1] = none := by
  rw [notNumeric_iff] at h
  simpa [tagNumber] using h

/-- `DEC.RUN` on a frame with two given tag bytes: what it reports of them, a number or not (R131). -/
theorem decoded_tag {pre ck : List Byte} (hb : s.buf = pre ++ [t0, t1] ++ ck) (hck : ck.length = 5) :
    tagnumFlag (decoded s).status = (tagNumber [t0, t1]).isSome ∧ (decoded s).dseq = dseqOf [t0, t1] ∧
      (decoded s).tag = t0 ++ t1 := by
  obtain ⟨-, htag, -⟩ := frame_of_parts (pre := pre) (t0 := t0) (t1 := t1) hck
  rw [decoded_of_long s (by simp [hb, hck]), decodedLong, hb]
  simp only [decodeFrame, htag]
  exact ⟨(statusWord_flags _ _ _).2.1, rfl, rfl⟩

/-- Settles O38: `dec2` by the rule's formula, and the rule's examples. -/
theorem dec2IsTwoDigits : Obligations.Dec2IsTwoDigits :=
  ⟨fun _ => dec2_of_le, by decide, by decide, by decide, by decide, rfl⟩

/-- Settles O40: two digits are read back, and other tag bytes are reported raw. -/
theorem tagReadsBack : Obligations.TagReadsBack := by
  refine ⟨fun t0 t1 ⟨h0, h1⟩ => ?_, fun n => tagNumber_dec2, fun t0 t1 hnot => ⟨tagNumber_of_notNumeric hnot, ?_⟩⟩
  · rw [← isDigit_iff] at h0 h1
    have hn := tagNumber_of_digits h0 h1
    exact ⟨_, hn, rfl, tagNumber_le hn, dec2_of_digits h0 h1⟩
  · intro s pre ck hb hck
    obtain ⟨hflag, hdseq, htag⟩ := decoded_tag hb hck
    have hnone := tagNumber_of_notNumeric hnot
    exact ⟨_, rfl, hflag.trans (by rw [hnone]; rfl), hdseq.trans (by rw [dseqOf, hnone]; rfl), htag⟩

end Sys2Proof.Machine
end

section
/-! SUPPORT and O49. The pseudo-commands of R77: the words of their expansions, and what each leaves in a unit. -/

namespace Sys2Proof.Machine

variable (s : State) (bs c f : List Byte) (n : Byte)

/-! ### The words -/

theorem encode_load : (expand (.load bs)).map encode = 0x1000 :: bs.map fun b => 0x11#8 ++ b := by
  simp only [expand, loadCommands, List.map_cons, List.map_map]
  rfl

theorem encode_crc16 : (expand (.crc16 bs)).map encode = 0x2000 :: bs.map fun b => 0x21#8 ++ b := by
  simp only [expand, List.map_cons, List.map_map]
  rfl

theorem encode_dump (k : Nat) :
    (expand (.dump k)).map encode = 0x0101 :: (List.range k).map fun i => 0x12#8 ++ BitVec.ofNat 8 i := by
  simp only [expand, List.map_cons, List.map_map]
  rfl

/-! ### Loading, encoding, decoding -/

/-- `SEQ.SET n` and `ENC.RUN` frame the buffer with the tag `n` and leave the decode results. -/
theorem afterAll_seqSet_encRun (hl : s.buf.length ≤ 25) (hn : n.toNat ≤ 99) :
    let t := afterAll [.seqSet n, .encRun] s
    t.buf = encodeFrame s.buf n.toNat ∧ t.seq.toNat = n.toNat ∧
      t.status = s.status ∧ t.clen = s.clen ∧ t.tag = s.tag ∧ t.dseq = s.dseq := by
  have hset : refusedFor (.seqSet n) s = none := if_pos (show n.toNat < 100 by omega)
  have henc (r : RspWord) : refusedFor .encRun ((effect (.seqSet n) s).emit r) = none := if_neg (Nat.not_lt.mpr hl)
  have hseq : (BitVec.ofNat 7 n.toNat).toNat = n.toNat := by simp; omega
  rw [afterAll_cons, afterAll_cons, afterAll_nil, after_of_none s hset, after_of_none _ (henc _)]
  exact ⟨congrArg (encodeFrame s.buf) hseq, hseq, rfl, rfl, rfl, rfl⟩

/-- `DEC.RUN` reads and writes the unit's items only. -/
theorem sameUnit_decoded {s t : State} (u : SameUnit s t) : SameUnit (decoded s) (decoded t) := by
  obtain ⟨buf, seq, crc, status, clen, tag, dseq, hostq, rsps⟩ := s
  obtain ⟨buf', seq', crc', status', clen', tag', dseq', hostq', rsps'⟩ := t
  simp only [SameUnit] at u
  obtain ⟨rfl, rfl, rfl, rfl, rfl, rfl, rfl⟩ := u
  unfold decoded
  split <;> exact ⟨rfl, rfl, rfl, rfl, rfl, rfl, rfl⟩

/-! ### The checksum of a byte stream -/

theorem afterAll_crcUpd : ∃ r, afterAll (bs.map .crcUpd) s = { s with crc := bs.foldl crcStep s.crc, rsps := r } := by
  induction bs generalizing s with
  | nil => exact ⟨s.rsps, rfl⟩
  | cons b bs ih => exact (afterAll_cons s _ _).symm ▸ ih (after (.crcUpd b) s)

theorem afterAll_crc16 : ∃ r, afterAll (expand (.crc16 bs)) s = { s with crc := crc16 bs, rsps := r } := by
  rw [expand, afterAll_cons, crc16_eq_foldl]
  exact afterAll_crcUpd (after .crcClr s) bs

/-! ### Reading out -/

variable {s}

/-- Reads only respond, each as it would on the state before them all (R45). -/
theorem afterAll_of_effect_eq_self {is : List Instr} (hi : ∀ i ∈ is, ∀ t, effect i t = t) :
    afterAll is s = { s with rsps := s.rsps ++ is.map (responseTo · s) } := by
  induction is generalizing s with
  | nil => simp
  | cons i is ih =>
    have hfirst : after i s = s.emit (responseTo i s) :=
      Host.Outcome.next.inj ((exec_eq_after s i).symm.trans (exec_of_effect_eq_self (hi i (by simp) s)))
    rw [afterAll_cons, hfirst, ih fun j hj => hi j (by simp [hj])]
    simp

theorem responseTo_rd_len (hl : s.buf.length ≤ 32) : responseTo (.rd 1) s = rspWord 0 (BitVec.ofNat 16 s.buf.length) :=
  congrArg (rspWord 0) (lenReg_zeroExtend (by omega))

theorem responseTo_bufRd {k : Byte} (hk : k.toNat < s.buf.length) :
    responseTo (.bufRd k) s = rspWord 0 (s.buf[k.toNat].zeroExtend 16) := by
  simp [responseTo, refusedFor, answer, Memory.read, indexOperand, hk]

/-- The bytes read at all indices in order are the buffer. -/
theorem responses_bufRd (hl : s.buf.length ≤ 32) :
    ((List.range s.buf.length).map fun k => responseTo (.bufRd (BitVec.ofNat 8 k)) s) =
      s.buf.map fun b => rspWord 0 (b.zeroExtend 16) := by
  refine List.ext_getElem (by simp) fun k hk _ => ?_
  have hk : k < s.buf.length := by simpa using hk
  have hk8 : (BitVec.ofNat 8 k).toNat = k := by simp; omega
  rw [List.getElem_map, List.getElem_range, List.getElem_map, responseTo_bufRd (hk8.symm ▸ hk)]
  simp only [hk8]

theorem afterAll_dump (hl : s.buf.length ≤ 32) : afterAll (expand (.dump s.buf.length)) s = { s with
    rsps := s.rsps ++ rspWord 0 (BitVec.ofNat 16 s.buf.length) :: s.buf.map fun b => rspWord 0 (b.zeroExtend 16) } := by
  rw [afterAll_of_effect_eq_self (by simp [expand, effect]), expand, List.map_cons, List.map_map, responseTo_rd_len hl,
    ← responses_bufRd hl]
  rfl

/-- Settles O49: the five expansions of R77 and what each leaves from any state. -/
theorem pseudoCommandsDoAsR77Says : Obligations.PseudoCommandsDoAsR77Says := by
  refine ⟨encode_load, fun c n => ?_, fun f => ?_, encode_crc16, encode_dump, fun bs s hl => ?_, fun c n s hc hn => ?_,
    fun f s hf => ?_, fun bs s => ?_, fun s hl => ?_⟩
  · exact List.map_append
  · exact List.map_append
  · obtain ⟨r, hr⟩ := afterAll_load s bs hl
    exact ⟨_, execAll_eq_afterAll s _, by rw [expand, hr]⟩
  · obtain ⟨r, hr⟩ := afterAll_load s c (by omega)
    refine ⟨_, execAll_eq_afterAll s _, ?_⟩
    rw [expand, afterAll_append, hr]
    exact afterAll_seqSet_encRun { s with buf := c, rsps := s.rsps ++ r } n hc hn
  · obtain ⟨r, hr⟩ := afterAll_load s f hf
    refine ⟨_, _, execAll_eq_afterAll s _, rfl, ?_⟩
    rw [expand, afterAll_append, hr, afterAll_cons, afterAll_nil, after_of_none _ rfl]
    exact sameUnit_decoded ⟨rfl, rfl, rfl, rfl, rfl, rfl, rfl⟩
  · obtain ⟨r, hr⟩ := afterAll_crc16 s bs
    exact ⟨_, execAll_eq_afterAll s _, by rw [hr]⟩
  · rw [execAll_eq_afterAll, afterAll_dump hl]

end Sys2Proof.Machine
end

section
/-! SUPPORT, O19 to O22. The words of the commands as R95 to R98 write them, and the two refusals their rules have: a
format N command issued with an operand, and a digit index out of range. -/

namespace Sys2Proof.Machine

variable {i : Instr} {s : State}

/-- The word of a command with an operand, written as its opcode's word with the operand in the low byte. -/
theorem encode_eq_or (op : Byte) {m : CmdWord} (hop : opcodeOf i = op) (hm : m = (op ++ 0x00#8 : CmdWord)) :
    encode i = m ||| (operandOf i).zeroExtend 16 := by
  subst hop hm
  apply BitVec.eq_of_getLsbD_eq
  intro k hk
  rw [encode, BitVec.getLsbD_or, getLsbD_fields, getLsbD_fields, BitVec.getLsbD_setWidth]
  split
  · simp [hk]
  · rw [BitVec.getLsbD_of_ge (operandOf i) k (by omega)]
    simp

/-- A command its rule refuses leaves the state and responds with the cause's code and its own word (R141). -/
theorem exec_of_refusedFor_some {c : RefusalCause} (h : refusedFor i s = some c) :
    exec i s = .next (s.emit (rspWord (refusalCode c) (encode i))) := by
  rw [exec_eq_after, after, h]

/-- A command its rule does not refuse has its effect and responds with its answer. -/
theorem exec_of_refusedFor_none (h : refusedFor i s = none) :
    exec i s = .next ((effect i s).emit (rspWord 0 (answer i s))) := by
  rw [exec_eq_after, after_of_none s h]

/-- A word with the opcode of a format N command and a non-zero operand changes nothing and is echoed under `ILLEGAL_OP`
(R71 step 3). -/
theorem step_offer_operandNotZero {op a : Byte} (hop : op.toNat ∈ noOperandOpcodes) (ha : a ≠ 0) (s : State) :
    step (offer (op ++ a) s) = .next (s.emit (rspWord 1 (op ++ a))) := by
  have hillegal : decode (op ++ a) = .illegal .operandNotZero := decode_eq_iff_decodesAs.mpr
    ⟨(opField_append op a).symm ▸ hop, (argField_append op a).symm ▸ ha⟩
  rw [step_offer, execWord_illegal s hillegal]

/-- `CRC.BUF` with the accumulator's new value as the fold of R92. -/
theorem exec_crcBuf (s : State) :
    exec .crcBuf s = .next ((s.withCrc (s.buf.foldl crcStep 0x0000)).emit (rspWord 0 0)) := by
  rw [exec_of_refusedFor_none rfl, effect, crc16_eq_foldl, answer]

/-- The data of `CRC.DIG`, the decimal digit the rule names (R98). -/
theorem answer_crcDig {k : Byte} (hk : k.toNat < 5) :
    answer (.crcDig k) s = BitVec.ofNat 16 (0x30 + s.crc.toNat / 10 ^ (4 - k.toNat) % 10) := by
  rw [answer, indexOperand, dec5_getElem? _ hk, Option.getD_some, asciiDigit_zeroExtend]

/-- Settles O22: by the digit's index, a digit of `dec5` or the refusal. -/
theorem crcDigRespondsDigit : Obligations.CrcDigRespondsDigit := by
  have hword (k : Byte) : encode (.crcDig k) = 0x2300 ||| k.zeroExtend 16 := encode_eq_or 0x23 rfl rfl
  refine ⟨hword, fun k s hk => ?_, fun k s hk => ?_⟩
  · have hr : refusedFor (.crcDig k) s = none := if_pos hk
    rw [exec_of_refusedFor_none hr, answer_crcDig hk]
    rfl
  · have hr : refusedFor (.crcDig k) s = some .index := if_neg (Nat.not_lt.mpr hk)
    rw [exec_of_refusedFor_some hr, hword]
    rfl

/-- Settles O19: the command clears, its word with an operand is refused. -/
theorem crcClrZeroesAccumulator : Obligations.CrcClrZeroesAccumulator :=
  ⟨rfl, fun _ => exec_of_refusedFor_none rfl, fun _ s ha => step_offer_operandNotZero (by decide) ha s⟩

/-- Settles O20: the accumulator takes one step of the CRC, and the rule's example values. -/
theorem crcUpdFeedsOneByte : Obligations.CrcUpdFeedsOneByte :=
  ⟨fun _ => encode_eq_or 0x21 rfl rfl, fun _ _ => exec_of_refusedFor_none rfl, by decide, by decide,
    by decide +kernel⟩

/-- Settles O21: the fold over the buffer, with no byte to fold when it is empty, and the word with an operand refused. -/
theorem crcBufCoversWholeBuffer : Obligations.CrcBufCoversWholeBuffer := by
  refine ⟨rfl, exec_crcBuf, fun s hb => ?_, fun _ s ha => step_offer_operandNotZero (by decide) ha s⟩
  have hfold := exec_crcBuf s
  rw [hb, List.foldl_nil] at hfold
  exact hfold

end Sys2Proof.Machine
end

section
/-! SUPPORT and O15 to O18. Reading the registers and the buffer's own commands, as R111 to R114 state them: each either
executes or is refused with its word echoed. -/

namespace Sys2Proof.Machine

variable {i : Instr} {s : State} {r : Byte}

/-- A refused command, with its word as its rule writes it. -/
theorem exec_refused_of_encode_eq (c : RefusalCause) {w : CmdWord} (hw : encode i = w) (h : refusedFor i s = some c) :
    exec i s = .next (s.emit (rspWord (refusalCode c) w)) := by
  rw [exec_of_refusedFor_some h, hw]

/-! ### The registers (R46, R111) -/

theorem regOperand_regNumber (x : Reg) : regOperand (regNumber x) = some x := by
  cases x <;> rfl

/-- The numbers up to 6 are those of the seven registers. -/
theorem exists_regNumber_eq (hr : r.toNat ≤ 6) : ∃ x, regNumber x = r := by
  have hx : ∃ x, regNumber x = BitVec.ofNat 8 r.toNat := by
    interval_cases r.toNat
    exacts [⟨.status, rfl⟩, ⟨.len, rfl⟩, ⟨.seq, rfl⟩, ⟨.crc, rfl⟩, ⟨.clen, rfl⟩, ⟨.tag, rfl⟩, ⟨.dseq, rfl⟩]
  simpa using hx

/-- The numbers from 7 on are reserved. -/
theorem regOperand_of_seven_le (hr : 7 ≤ r.toNat) : regOperand r = none := by
  unfold regOperand
  split
  case h_8 => rfl
  all_goals omega

/-- Reading a register by its number responds with its value and changes nothing. -/
theorem exec_rd_regNumber (x : Reg) (s : State) :
    exec (.rd (regNumber x)) s = .next (s.emit (rspWord 0 (regValue s x))) := by
  have hr : refusedFor (.rd (regNumber x)) s = none := by simp [refusedFor, regOperand_regNumber]
  rw [exec_of_refusedFor_none hr, effect, answer, regOperand_regNumber]
  rfl

theorem refusedFor_rd_of_seven_le (hr : 7 ≤ r.toNat) : refusedFor (.rd r) s = some .illegalReg := by
  simp [refusedFor, regOperand_of_seven_le hr]

/-- After reset `DSEQ` is 127, every other register 0 (R34). -/
theorem regValue_reset (x : Reg) : regValue .reset x = if regNumber x = 6 then 0x007F else 0 := by
  cases x <;> rfl

theorem reservedBits_toNat (v : Half) : (reservedBits v).toNat = v.toNat / 8 := by
  have hv := v.isLt
  simp only [reservedBits, BitVec.extractLsb'_toNat, Nat.shiftRight_eq_div_pow]
  omega

/-- Settles O15: the seven registers by name, the reserved numbers, and the values after reset. -/
theorem rdRespondsRegister : Obligations.RdRespondsRegister := by
  have hword (r : Byte) : encode (.rd r) = 0x0100 ||| r.zeroExtend 16 := encode_eq_or 0x01 rfl rfl
  refine ⟨hword, exec_rd_regNumber .status, fun s hl => ?_, exec_rd_regNumber .seq, exec_rd_regNumber .crc,
    exec_rd_regNumber .clen, exec_rd_regNumber .tag, exec_rd_regNumber .dseq, fun r s hr => ?_, fun s hs => ?_,
    fun r hr => ?_⟩
  · have hlen : regValue s .len = BitVec.ofNat 16 s.buf.length := lenReg_zeroExtend (by omega)
    rw [← hlen]
    exact exec_rd_regNumber .len s
  · exact exec_refused_of_encode_eq .illegalReg (hword r) (refusedFor_rd_of_seven_le hr)
  · rw [← reservedBits_toNat, hs.reserved]
    rfl
  · obtain ⟨x, rfl⟩ := exists_regNumber_eq hr
    rw [exec_rd_regNumber, regValue_reset]
    rfl

/-! ### The buffer (R112 to R114) -/

theorem exec_bufClr (s : State) : exec .bufClr s = .next ((s.withBuf []).emit (rspWord 0 0)) :=
  exec_of_refusedFor_none rfl

/-- Settles O16: the buffer left is the empty one, and the word with an operand is refused. -/
theorem bufClrEmptiesBuffer : Obligations.BufClrEmptiesBuffer := by
  refine ⟨rfl, exec_bufClr, fun s t h => ?_, fun _ s ha => step_offer_operandNotZero (by decide) ha s⟩
  obtain rfl := Host.Outcome.next.inj ((exec_bufClr s).symm.trans h)
  exact ⟨rfl, Memory.read_clear⟩

/-- Settles O17: by the room left in the buffer, the byte is appended or dropped. -/
theorem bufPushAppendsByte : Obligations.BufPushAppendsByte := by
  have hword (b : Byte) : encode (.bufPush b) = 0x1100 ||| b.zeroExtend 16 := encode_eq_or 0x11 rfl rfl
  refine ⟨hword, fun b s hl => ?_, fun b s hl => ?_⟩
  · have hr : refusedFor (.bufPush b) s = none := if_pos hl
    exact exec_of_refusedFor_none hr
  · have hr : refusedFor (.bufPush b) s = some .overflow := if_neg hl.not_lt
    exact exec_refused_of_encode_eq .overflow (hword b) hr

/-- Settles O18: a read below the length responds with its byte, any other, so every one from 32 on, is refused. -/
theorem bufRdRespondsByte : Obligations.BufRdRespondsByte := by
  have hword (k : Byte) : encode (.bufRd k) = 0x1200 ||| k.zeroExtend 16 := encode_eq_or 0x12 rfl rfl
  have hrefused (k : Byte) (s : State) (hk : s.buf.length ≤ k.toNat) :
      exec (.bufRd k) s = .next (s.emit (rspWord 4 (0x1200 ||| k.zeroExtend 16))) :=
    exec_refused_of_encode_eq .index (hword k) (if_neg hk.not_gt)
  refine ⟨hword, fun k s hk => ?_, hrefused, fun k s hl hk => hrefused k s (hl.trans hk)⟩
  rw [exec_of_effect_eq_self rfl, responseTo_bufRd hk]
  rfl

end Sys2Proof.Machine
end

section
/-! SUPPORT, O23 to O25. The encoder's commands as R121 to R123 state them: setting the tag, advancing it any number of
times, and the frame with its digits written out. -/

namespace Sys2Proof.Machine

variable {s : State} {k : Nat}

/-! ### The tag (R121, R122) -/

theorem exec_seqInc (s : State) :
    exec .seqInc s = .next ((s.withSeq (nextTag s.seq)).emit (rspWord 0 ((nextTag s.seq).zeroExtend 16))) :=
  exec_of_refusedFor_none rfl

/-- `k` advances of a tag add `k` to it, modulo 100 (R122). -/
theorem afterAll_seqInc_seq (hs : s.seq.toNat ≤ 99) :
    (afterAll (List.replicate k .seqInc) s).seq.toNat = (s.seq.toNat + k) % 100 := by
  induction k generalizing s with
  | zero => exact (Nat.mod_eq_of_lt (show s.seq.toNat < 100 by omega)).symm
  | succ k ih =>
    have hnext : (after .seqInc s).seq.toNat = (s.seq.toNat + 1) % 100 := nextTag_toNat s.seq
    rw [List.replicate_succ, afterAll_cons, ih (by omega), hnext]
    omega

/-- Settles O23: by the number, it is the new tag or the command is refused. -/
theorem seqSetWritesTag : Obligations.SeqSetWritesTag := by
  have hword (n : Byte) : encode (.seqSet n) = 0x3000 ||| n.zeroExtend 16 := encode_eq_or 0x30 rfl rfl
  refine ⟨hword, fun n s hn => ?_, fun n s hn => ?_⟩
  · have hr : refusedFor (.seqSet n) s = none := if_pos (show n.toNat < 100 by omega)
    have hseq : (BitVec.ofNat 7 n.toNat).toNat = n.toNat := Nat.mod_eq_of_lt (by omega)
    exact ⟨_, exec_of_refusedFor_none hr, hseq, rfl⟩
  · have hr : refusedFor (.seqSet n) s = some .range := if_neg (Nat.not_lt.mpr hn)
    exact exec_refused_of_encode_eq .range (hword n) hr

/-- Settles O24: one advance, then any number of them; `SEQ + k` and `SEQ` agree modulo 100 for no `k` between 0 and 100. -/
theorem seqIncAdvancesModulo100 : Obligations.SeqIncAdvancesModulo100 := by
  refine ⟨rfl, fun s => ⟨_, exec_seqInc s, nextTag_toNat s.seq, rfl⟩, fun s k hs => ?_,
    fun _ s ha => step_offer_operandNotZero (by decide) ha s⟩
  have hseq := afterAll_seqInc_seq (k := k) hs
  refine ⟨_, execAll_eq_afterAll s _, hseq, fun hk => ?_, fun hpos hlt heq => ?_⟩
  · apply BitVec.eq_of_toNat_eq
    omega
  · rw [heq] at hseq
    omega

/-! ### The frame (R61, R123) -/

/-- The checksum's five digits: the first needs no reduction modulo 10, since the CRC is below 65536 (R65). -/
theorem dec5_eq_ofNat (c : Half) : dec5 c = [BitVec.ofNat 8 (0x30 + c.toNat / 10000),
    BitVec.ofNat 8 (0x30 + c.toNat / 1000 % 10), BitVec.ofNat 8 (0x30 + c.toNat / 100 % 10),
    BitVec.ofNat 8 (0x30 + c.toNat / 10 % 10), BitVec.ofNat 8 (0x30 + c.toNat % 10)] := by
  have hfirst : c.toNat / 10000 % 10 = c.toNat / 10000 := Nat.mod_eq_of_lt (by omega)
  simp only [dec5_eq, asciiDigit, hfirst]

theorem coveredBytes_of_le {chunk : List Byte} {n : Nat} (hn : n ≤ 99) :
    coveredBytes chunk n = chunk ++ [BitVec.ofNat 8 (0x30 + n / 10), BitVec.ofNat 8 (0x30 + n % 10)] := by
  rw [coveredBytes, dec2_of_le hn]

/-- `ENC.RUN` on a chunk that fits: the response is the frame's length (R123). -/
theorem exec_encRun_of_le (hl : s.buf.length ≤ 25) :
    exec .encRun s = .next ((encoded s).emit (rspWord 0 (BitVec.ofNat 16 (s.buf.length + 7)))) := by
  have hr : refusedFor .encRun s = none := if_neg (Nat.not_lt.mpr hl)
  have hlen : (encoded s).buf.length = s.buf.length + 7 := length_encodeFrame s.buf s.seq.toNat
  rw [exec_of_refusedFor_none hr, effect, answer, lenReg_zeroExtend (by omega), hlen]

/-- Settles O25: by the room for seven more bytes, the frame or the refusal. -/
theorem encRunWritesFrame : Obligations.EncRunWritesFrame := by
  refine ⟨rfl, fun s hl hs => ⟨_, _, _, _, rfl, rfl, rfl, rfl, ?_⟩, fun s hl => ?_,
    fun _ s ha => step_offer_operandNotZero (by decide) ha s⟩
  · rw [exec_encRun_of_le hl, ← coveredBytes_of_le hs, ← crc16_eq_foldl, ← dec5_eq_ofNat]
    rfl
  · exact exec_of_refusedFor_some (c := .length) (if_pos hl)

end Sys2Proof.Machine
end

section
/-! SUPPORT and O26. The decoder's command as R131 states it: the fields of a frame by the rule's indices from its end, and the
registers `DEC.RUN` makes of them. -/

namespace Sys2Proof.Machine

variable {s : State} {f : List Byte} {t0 t1 : Byte}

/-! ### The fields -/

/-- The tag bytes by their indices (R61). -/
theorem frameTag_eq (hf : 7 ≤ f.length) : frameTag f = [f[f.length - 7], f[f.length - 6]] := by
  have hnext : f.length - 7 + 1 = f.length - 6 := by omega
  have hlast : f.length - 6 + 1 = f.length - 5 := by omega
  have hdrop : f.drop (f.length - 7) = f[f.length - 7] :: f[f.length - 6] :: f.drop (f.length - 5) := by
    rw [List.drop_eq_getElem_cons (by omega), List.drop_eq_getElem_cons (by omega)]
    simp only [hnext, hlast]
  exact congrArg (List.take 2) hdrop

/-- The CRC recomputed over the covered bytes as received, the fold of R92 (R63). -/
theorem frameCrc_eq_foldl (hf : 7 ≤ f.length) : frameCrc f = (f.take (f.length - 5)).foldl crcStep 0x0000 := by
  rw [frameCrc, frameChunk_append_frameTag hf, crc16_eq_foldl]

/-! ### The verdict -/

/-- `VALID` compares the checksum bytes, not a number they spell (R63). -/
theorem decodeFrame_valid_iff : (decodeFrame f).valid = true ↔ dec5 (frameCrc f) = frameChecksum f := beq_iff_eq

/-- `STATUS` of a frame that is not short, as a number (R26). -/
theorem statusWord_toNat (valid tagnum : Bool) :
    (statusWord valid tagnum false).toNat = valid.toNat + 2 * tagnum.toNat := by
  revert valid tagnum; decide

theorem tagNumber_isSome_iff :
    (tagNumber [t0, t1]).isSome = true ↔ (0x30 ≤ t0.toNat ∧ t0.toNat ≤ 0x39) ∧ (0x30 ≤ t1.toNat ∧ t1.toNat ≤ 0x39) := by
  rw [← isDigit_iff, ← isDigit_iff]
  simp [tagNumber]

/-- `DSEQ` by whether the tag is a number: two digits spell at most 99, which seven bits hold (R30). -/
theorem dseqOf_toNat : (dseqOf [t0, t1]).toNat =
    if (tagNumber [t0, t1]).isSome then 10 * (t0.toNat - 0x30) + (t1.toNat - 0x30) else 127 := by
  cases hn : tagNumber [t0, t1] with
  | none =>
    rw [dseqOf, hn]
    rfl
  | some n =>
    have hle := tagNumber_le hn
    have hval : 10 * digitVal t0 + digitVal t1 = n := by
      simp only [tagNumber, Option.ite_none_right_eq_some, Option.some.injEq] at hn
      exact hn.2
    calc (dseqOf [t0, t1]).toNat = n % 2 ^ 7 := by rw [dseqOf, hn, BitVec.toNat_ofNat]
      _ = n := Nat.mod_eq_of_lt (by omega)
      _ = 10 * digitVal t0 + digitVal t1 := hval.symm

/-! ### The command -/

theorem exec_decRun (s : State) : exec .decRun s = .next ((decoded s).emit (rspWord 0 (decoded s).status)) :=
  exec_of_refusedFor_none rfl

/-- Settles O26: by the length, the short frame's registers or those of the fields by index. -/
theorem decRunReportsVerdict : Obligations.DecRunReportsVerdict := by
  refine ⟨rfl, fun s hs => ?_, fun s hlo hhi => ?_, fun _ s ha => step_offer_operandNotZero (by decide) ha s⟩
  · rw [exec_decRun, decoded_of_short s hs]
    rfl
  · have htag := frameTag_eq hlo
    have hclen : (BitVec.ofNat 5 (frameChunk s.buf).length).toNat = s.buf.length - 7 := by
      rw [length_frameChunk]
      exact Nat.mod_eq_of_lt (by omega)
    have hexec := exec_decRun s
    rw [decoded_of_long s hlo] at hexec
    refine ⟨_, s.buf[s.buf.length - 7], s.buf[s.buf.length - 6], _, _, (decodeFrame s.buf).valid,
      (tagNumber (frameTag s.buf)).isSome, _, _, rfl, List.getElem?_eq_getElem _, List.getElem?_eq_getElem _, rfl, rfl,
      ?valid, ?tagnum, statusWord_toNat _ _, hexec, rfl, hclen, congrArg tagWord htag, ?dseq, frameCrc_eq_foldl hlo, rfl⟩
    case valid =>
      rw [← frameCrc_eq_foldl hlo]
      exact decodeFrame_valid_iff
    case tagnum =>
      rw [htag]
      exact tagNumber_isSome_iff
    case dseq =>
      show (dseqOf (frameTag s.buf)).toNat = _
      rw [htag, dseqOf_toNat]

end Sys2Proof.Machine
end

section
/-! SUPPORT, O32 and O33. The cause a command word is refused for in a state: the code it is answered with is that of R142's
table (in R143's order), and a refusal leaves no trace on later words (R141). -/

namespace Sys2Proof.Machine

variable {w : CmdWord} {i : Instr} {s : State} {c : RefusalCause} {x : RspWord}

/-! ### The cause of a word's refusal -/

/-- The cause a word is refused for in a state, if it is: decoding comes first (R143), then the command's own rule. -/
def wordRefusal (w : CmdWord) (s : State) : Option RefusalCause :=
  match decode w with
  | .illegal _ => some .illegalOp
  | .command i => refusedFor i s

theorem wordRefusal_of_illegal {why : IllegalWord} (hd : decode w = .illegal why) :
    wordRefusal w s = some .illegalOp := by
  rw [wordRefusal, hd]

theorem wordRefusal_of_command (hd : decode w = .command i) : wordRefusal w s = refusedFor i s := by
  rw [wordRefusal, hd]

@[simp] theorem wordRefusal_emit : wordRefusal w (s.emit x) = wordRefusal w s := by
  cases hd : decode w with
  | illegal why => rw [wordRefusal_of_illegal hd, wordRefusal_of_illegal hd]
  | command i => rw [wordRefusal_of_command hd, wordRefusal_of_command hd, refusedFor_emit]

/-- A refused word changes nothing and is echoed under its cause's code (R141). -/
theorem execWord_of_wordRefusal_some (h : wordRefusal w s = some c) :
    execWord w s = .next (s.emit (rspWord (refusalCode c) w)) := by
  cases hd : decode w with
  | illegal why =>
    obtain rfl : .illegalOp = c := Option.some.inj ((wordRefusal_of_illegal hd).symm.trans h)
    exact execWord_illegal s hd
  | command i =>
    rw [execWord_command s hd, exec_of_refusedFor_some ((wordRefusal_of_command hd).symm.trans h),
      decode_eq_command_iff.mp hd]

/-- A word that is not refused is a command that executes. -/
theorem execWord_of_wordRefusal_none (h : wordRefusal w s = none) :
    ∃ i, decode w = .command i ∧ refusedFor i s = none ∧
      execWord w s = .next ((effect i s).emit (rspWord 0 (answer i s))) := by
  cases hd : decode w with
  | illegal why => cases (wordRefusal_of_illegal hd).symm.trans h
  | command i =>
    have hr := (wordRefusal_of_command hd).symm.trans h
    exact ⟨i, rfl, hr, (execWord_command s hd).trans (exec_of_refusedFor_none hr)⟩

/-! ### The table of R142 -/

theorem refusalCode_toNat_le (c : RefusalCause) : (refusalCode c).toNat ≤ 6 := by
  cases c <;> decide

/-- The table's code for a command's word is that of the cause its rule refuses it for. -/
theorem refusalTable_encode (hl : s.buf.length ≤ 32) (i : Instr) :
    refusalTable (encode i) s = (refusedFor i s).elim 0 refusalCode := by
  simp only [refusalTable, ← opField_toNat, ← argField_toNat, opField_encode, argField_encode]
  cases i with
  | rd r =>
    by_cases hr : 7 ≤ r.toNat
    · simp [opcodeOf, operandOf, refusedFor_rd_of_seven_le hr, hr, refusalCode]
    · obtain ⟨y, rfl⟩ := exists_regNumber_eq (r := r) (by omega)
      simp [opcodeOf, operandOf, refusedFor, regOperand_regNumber, hr]
  | bufPush b =>
    by_cases hfull : s.buf.length = 32
    · simp [opcodeOf, refusedFor, hfull, refusalCode]
    · simp [opcodeOf, refusedFor, hfull, hl.lt_of_ne hfull]
  | bufRd k =>
    obtain hk | hk := Nat.lt_or_ge k.toNat s.buf.length
    · simp [opcodeOf, operandOf, refusedFor, indexOperand, hk, hk.not_ge]
    · simp [opcodeOf, operandOf, refusedFor, indexOperand, hk, hk.not_gt, refusalCode]
  | crcDig k =>
    obtain hk | hk := Nat.lt_or_ge k.toNat 5
    · simp [opcodeOf, operandOf, refusedFor, indexOperand, hk, hk.not_ge]
    · simp [opcodeOf, operandOf, refusedFor, indexOperand, hk, hk.not_gt, refusalCode]
  | seqSet n =>
    obtain hn | hn := Nat.lt_or_ge n.toNat 100
    · simp [opcodeOf, operandOf, refusedFor, indexOperand, hn, hn.not_ge]
    · simp [opcodeOf, operandOf, refusedFor, indexOperand, hn, hn.not_gt, refusalCode]
  | encRun =>
    obtain hlen | hlen := Nat.lt_or_ge 25 s.buf.length
    · simp [opcodeOf, operandOf, refusedFor, hlen, Nat.succ_le_of_lt hlen, refusalCode]
    · simp [opcodeOf, operandOf, refusedFor, hlen.not_gt, Nat.not_le_of_lt (Nat.lt_succ_of_le hlen)]
  | bufClr | crcClr | crcUpd | crcBuf | seqInc | decRun => simp [opcodeOf, operandOf, refusedFor]

/-- A word that is no command is in the table's first two lines. -/
theorem refusalTable_of_illegal {why : IllegalWord} (hd : decode w = .illegal why) : refusalTable w s = 1 := by
  have hw := decode_eq_iff_decodesAs.mp hd
  simp only [refusalTable, ← opField_toNat, ← argField_toNat]
  cases why with
  | undefinedOpcode => exact if_pos hw
  | operandNotZero =>
    obtain ⟨hop, harg⟩ := hw
    have hne : (argField w).toNat ≠ 0 := fun h => harg (BitVec.eq_of_toNat_eq h)
    exact (if_neg (not_not.mpr (noOperandOpcodes_subset_opcodes hop))).trans (if_pos ⟨hop, hne⟩)

/-- The table gives the code of the cause a word is refused for, 0 for none. -/
theorem refusalTable_eq (hl : s.buf.length ≤ 32) : refusalTable w s = (wordRefusal w s).elim 0 refusalCode := by
  cases hd : decode w with
  | illegal why =>
    rw [refusalTable_of_illegal hd, wordRefusal_of_illegal hd]
    rfl
  | command i => rw [wordRefusal_of_command hd, decode_eq_command_iff.mp hd, refusalTable_encode hl]

/-- Settles O33: a refused word is echoed under its cause's code, one that executes has its data under code 0. -/
theorem responseCodesAreTheTables : Obligations.ResponseCodesAreTheTables := by
  intro w s hl
  rw [step_offer, refusalTable_eq hl]
  cases hc : wordRefusal w s with
  | some c =>
    refine ⟨_, _, execWord_of_wordRefusal_some hc, rfl, rspCode_rspWord _ _, fun _ => rspData_rspWord _ _, ?_, ?_⟩
    · rw [rspCode_rspWord]
      exact refusalCode_toNat_le c
    · rw [rspCode_rspWord]
      exact fun h0 => absurd h0 (refusalCode_ne_zero c)
  | none =>
    obtain ⟨i, hd, hr, hw⟩ := execWord_of_wordRefusal_none hc
    have hcode := rspCode_rspWord 0 (answer i s)
    refine ⟨_, rspWord 0 (answer i s), hw, ?_, hcode, fun hne => absurd hcode hne, ?_, fun _ => ⟨i, hd, ?_⟩⟩
    · rw [State.emit_rsps, effect_rsps]
    · rw [hcode]
      exact Nat.zero_le 6
    · rw [rspData_rspWord, executedData_emit, answer_eq_executedData hl hr]

/-! ### No trace of a refusal -/

/-- What a command does to the unit does not depend on earlier responses, which stay as they are. -/
theorem effect_emit (i : Instr) (s : State) (x : RspWord) : effect i (s.emit x) = (effect i s).emit x := by
  cases i with
  | decRun =>
    obtain h | h := Nat.lt_or_ge s.buf.length 7
    · rw [effect, effect, decoded_of_short s h, decoded_of_short (s.emit x) h]
      rfl
    · rw [effect, effect, decoded_of_long s h, decoded_of_long (s.emit x) h]
      rfl
  | rd | bufClr | bufPush | bufRd | crcClr | crcUpd | crcBuf | crcDig | seqSet | seqInc | encRun => rfl

/-- A word does and responds the same after a response already given, which stays where it is. -/
theorem execWord_emit (w : CmdWord) (s : State) (x : RspWord) : ∃ (u : State) (r : RspWord),
    u.rsps = s.rsps ∧ execWord w s = .next (u.emit r) ∧ execWord w (s.emit x) = .next ((u.emit x).emit r) := by
  cases hc : wordRefusal w s with
  | some c =>
    exact ⟨s, _, rfl, execWord_of_wordRefusal_some hc, execWord_of_wordRefusal_some (wordRefusal_emit.trans hc)⟩
  | none =>
    obtain ⟨i, hd, hr, hw⟩ := execWord_of_wordRefusal_none hc
    refine ⟨effect i s, rspWord 0 (answer i s), effect_rsps s i, hw, ?_⟩
    rw [execWord_command _ hd, exec_of_refusedFor_none ((refusedFor_emit i s x).trans hr), effect_emit, answer_emit]

/-- Settles O32: a word answered with a code that is not 0 only responded, and a response changes no later word. -/
theorem refusalChangesNothing : Obligations.RefusalChangesNothing := by
  intro w s t r hstep hrsps hcode
  rw [step_offer] at hstep
  cases hc : wordRefusal w s with
  | none =>
    obtain ⟨i, -, -, hw⟩ := execWord_of_wordRefusal_none hc
    obtain rfl := Host.Outcome.next.inj (hw.symm.trans hstep)
    rw [State.emit_rsps, effect_rsps] at hrsps
    obtain rfl : rspWord 0 (answer i s) = r := by simpa using hrsps
    exact absurd (rspCode_rspWord _ _) hcode
  | some c =>
    obtain rfl := Host.Outcome.next.inj ((execWord_of_wordRefusal_some hc).symm.trans hstep)
    obtain rfl : rspWord (refusalCode c) w = r := by simpa using hrsps
    refine ⟨sameUnit_emit _ _, rfl, rspData_rspWord _ _, fun hl => ?_, fun w' => ?_⟩
    · rw [refusalTable_eq hl, hc, rspCode_rspWord]
      rfl
    · obtain ⟨u, r', hu, hs, ht⟩ := execWord_emit w' s (rspWord (refusalCode c) w)
      rw [step_offer, step_offer]
      refine ⟨_, _, r', hs, ht, ⟨rfl, rfl, rfl, rfl, rfl, rfl, rfl⟩, ?_, ?_⟩
      · rw [State.emit_rsps, hu]
      · simp only [State.emit_rsps, hu]

end Sys2Proof.Machine
end

section
/-! SUPPORT, O1, O4, O6 to O8 and O34. A step on the host's next event, and the encoder and decoder on written-out words. -/

namespace Sys2Proof.Machine

/-- The word a table row stands for, offered by the host, is the command's own. -/
theorem withFetchWord_encode (s : State) (i : Instr) :
    s.withFetchWord 16 (encode i).toNat = offer (encode i) s := by
  have hlt : (encode i).toNat % 2 ^ 16 = (encode i).toNat := Nat.mod_eq_of_lt (encode i).isLt
  rw [State.withFetchWord, offerTableWord, hlt, BitVec.ofNat_toNat, BitVec.setWidth_eq]

/-- Settles O1: the decoder reads the two fields the encoder wrote. -/
theorem decodeOfEncodeIsIdentity : Obligations.DecodeOfEncodeIsIdentity := decode_encode

/-- Settles O4: each word is the one its command encodes to, or fails at the step of R71 named. -/
theorem writtenOutWordsDecode : Obligations.WrittenOutWordsDecode :=
  ⟨decode_encode (.rd 6), decode_encode (.bufPush 0x41), decode_encode (.crcDig 4), decode_encode (.seqSet 99),
    decode_encode .decRun, by decide, by decide, rfl⟩

/-- Settles O6: the event taken off the queue is the command's word, also where the host stored it. -/
theorem stepRunsDecodedCommand : Obligations.StepRunsDecodedCommand := by
  refine ⟨fun s w q i hq hd => ?_, fun s i => ?_⟩
  · rw [step_of_command s hq, execWord_command (s.withHostq q) hd]
    rfl
  · rw [withFetchWord_encode, step_offer, execWord_command s (decode_encode i)]

/-- Settles O7: the values of R34 at the start, and a reset event that makes them again. -/
theorem resetLeavesStatedValues : Obligations.ResetLeavesStatedValues :=
  ⟨⟨rfl, rfl, rfl, rfl, rfl, rfl, rfl, rfl, rfl, rfl, rfl⟩, fun s _ hq => step_of_reset s hq⟩

/-- Settles O8: with an empty queue the unit waits. -/
theorem idleUnitStaysAsItIs : Obligations.IdleUnitStaysAsItIs := step_of_nil

/-- Settles O34: the operand is refused while decoding, before the length of the buffer is looked at. -/
theorem decodeRefusalComesFirst : Obligations.DecodeRefusalComesFirst := by
  intro a s ha hl
  have hlong : refusedFor .encRun s = some .length := if_pos (show 25 < s.buf.length by omega)
  refine ⟨step_offer_operandNotZero (by decide) ha s, ?_⟩
  rw [step_offer, execWord_command s (i := .encRun) (by decide)]
  exact exec_refused_of_encode_eq .length rfl hlong

end Sys2Proof.Machine
end

section
/-! SUPPORT, O10 and O11. What a step does to the host's queue and to the responses, and that it reads no more of a state
than the unit's own items. -/

namespace Sys2Proof.Machine

variable {s s' t : State} {i : Instr} {w : CmdWord}

/-! ### What a step can do -/

/-- A step is idle, a reset, or the next command word (R48, R160). -/
theorem step_cases (s : State) :
    (s.hostq = [] ∧ step s = .next s) ∨
    (∃ q, s.hostq = .reset :: q ∧ step s = .next (takeReset (s.withHostq q))) ∨
    (∃ w q, s.hostq = .command w :: q ∧ step s = execWord w (s.withHostq q)) := by
  match hq : s.hostq with
  | [] => exact .inl ⟨rfl, step_of_nil s hq⟩
  | .reset :: q => exact .inr (.inl ⟨q, rfl, step_of_reset s hq⟩)
  | .command w :: q => exact .inr (.inr ⟨w, q, rfl, step_of_command s hq⟩)

/-- A command word has a next state, with one response more and the host's queue as it was. -/
theorem execWord_responds (w : CmdWord) (s : State) :
    ∃ t r, execWord w s = .next t ∧ t.hostq = s.hostq ∧ t.rsps = s.rsps ++ [r] := by
  obtain ⟨c, hw⟩ | ⟨i, -, -, hw⟩ := execWord_cases w s
  · exact ⟨_, _, hw, rfl, rfl⟩
  · exact ⟨_, rspWord 0 (answer i s), hw, effect_hostq s i, by rw [State.emit_rsps, effect_rsps]⟩

theorem exists_step (s : State) : ∃ t, step s = .next t := by
  obtain ⟨-, h⟩ | ⟨q, -, h⟩ | ⟨w, q, -, h⟩ := step_cases s
  · exact ⟨s, h⟩
  · exact ⟨_, h⟩
  · obtain ⟨t, -, ht, -⟩ := execWord_responds w (s.withHostq q)
    exact ⟨t, h.trans ht⟩

/-- A step uses up one event, and responds once exactly if it is a command. -/
theorem step_of_cons {e : HostEvent} {q : List HostEvent} (hq : s.hostq = e :: q) :
    ∃ t new, step s = .next t ∧ t.hostq = q ∧ t.rsps = s.rsps ++ new ∧ new.length = commandCount [e] := by
  cases e with
  | reset => exact ⟨_, [], step_of_reset s hq, rfl, (List.append_nil _).symm, rfl⟩
  | command w =>
    obtain ⟨t, r, ht, htq, htr⟩ := execWord_responds w (s.withHostq q)
    exact ⟨t, [r], (step_of_command s hq).trans ht, htq, htr, rfl⟩

theorem commandCount_cons (e : HostEvent) (q : List HostEvent) :
    commandCount (e :: q) = commandCount [e] + commandCount q := by
  cases e <;> simp [commandCount, Nat.add_comm]

/-- A first step that has a next state, and then the others. -/
theorem runSteps_succ {n : Nat} (h : step s = .next t) : runSteps (n + 1) s = runSteps n t := by
  rw [runSteps, h]

/-- `n` steps use up the first `n` events, with one response for each command among them. -/
theorem runSteps_drains (n : Nat) (s : State) (hn : n ≤ s.hostq.length) :
    ∃ t new, runSteps n s = .next t ∧ t.hostq = s.hostq.drop n ∧ t.rsps = s.rsps ++ new ∧
      new.length = commandCount (s.hostq.take n) := by
  induction n generalizing s with
  | zero => exact ⟨s, [], rfl, rfl, (List.append_nil _).symm, rfl⟩
  | succ n ih =>
    match hq : s.hostq with
    | [] => simp [hq] at hn
    | e :: q =>
      obtain ⟨t, new, hstep, htq, htr, hlen⟩ := step_of_cons hq
      obtain ⟨u, new', hrun, huq, hur, hlen'⟩ := ih t (by simpa [hq, htq] using hn)
      refine ⟨u, new ++ new', (runSteps_succ hstep).trans hrun, by rw [huq, htq]; rfl, ?_, ?_⟩
      · rw [hur, htr, List.append_assoc]
      · rw [List.length_append, hlen, hlen', htq, List.take_succ_cons, commandCount_cons e (q.take n)]

/-- Settles O10: every step goes on, and by induction on the number of steps the queue drains. -/
theorem hostQueueDrains : Obligations.HostQueueDrains := ⟨exists_step, runSteps_drains⟩

/-! ### The unit's own items -/

theorem SameUnit.refl (s : State) : SameUnit s s := ⟨rfl, rfl, rfl, rfl, rfl, rfl, rfl⟩

theorem SameUnit.trans {u : State} (h : SameUnit s t) (h' : SameUnit t u) : SameUnit s u := by
  obtain ⟨hbuf, hseq, hcrc, hstatus, hclen, htag, hdseq⟩ := h
  obtain ⟨hbuf', hseq', hcrc', hstatus', hclen', htag', hdseq'⟩ := h'
  exact ⟨hbuf'.trans hbuf, hseq'.trans hseq, hcrc'.trans hcrc, hstatus'.trans hstatus, hclen'.trans hclen,
    htag'.trans htag, hdseq'.trans hdseq⟩

theorem SameUnit.symm (h : SameUnit s t) : SameUnit t s := by
  obtain ⟨hbuf, hseq, hcrc, hstatus, hclen, htag, hdseq⟩ := h
  exact ⟨hbuf.symm, hseq.symm, hcrc.symm, hstatus.symm, hclen.symm, htag.symm, hdseq.symm⟩

/-- The two states differ in the host's record only. -/
theorem SameUnit.eq_host (h : SameUnit s t) : t = { s with hostq := t.hostq, rsps := t.rsps } := by
  obtain ⟨hbuf, hseq, hcrc, hstatus, hclen, htag, hdseq⟩ := h
  rw [← hbuf, ← hseq, ← hcrc, ← hstatus, ← hclen, ← htag, ← hdseq]

/-- The events to come on either side are no part of the agreement. -/
theorem SameUnit.withHostq (h : SameUnit s t) (q : List HostEvent) : SameUnit (s.withHostq q) (t.withHostq q) := h

theorem SameUnit.refusedFor_eq (h : SameUnit s t) (i : Instr) : refusedFor i t = refusedFor i s := by
  rw [h.eq_host]
  cases i <;> rfl

theorem SameUnit.regValue_eq (h : SameUnit s t) (x : Reg) : regValue t x = regValue s x := by
  rw [h.eq_host]
  cases x <;> rfl

theorem SameUnit.answer_eq (h : SameUnit s t) (i : Instr) : answer i t = answer i s := by
  cases i with
  | rd r => simp only [answer, funext h.regValue_eq]
  | decRun => exact (sameUnit_decoded h).2.2.2.1
  | bufClr | bufPush | bufRd | crcClr | crcUpd | crcBuf | crcDig | seqSet | seqInc | encRun =>
    rw [h.eq_host]
    rfl

/-- A command does the same to the same unit. -/
theorem SameUnit.effect (h : SameUnit s t) (i : Instr) : SameUnit (effect i s) (effect i t) := by
  cases i with
  | decRun => exact sameUnit_decoded h
  | rd | bufClr | bufPush | bufRd | crcClr | crcUpd | crcBuf | crcDig | seqSet | seqInc | encRun =>
    rw [h.eq_host]
    exact ⟨rfl, rfl, rfl, rfl, rfl, rfl, rfl⟩

theorem SameUnit.wordRefusal_eq (h : SameUnit s t) (w : CmdWord) : wordRefusal w t = wordRefusal w s := by
  cases hd : decode w with
  | illegal why => rw [wordRefusal_of_illegal hd, wordRefusal_of_illegal hd]
  | command i => rw [wordRefusal_of_command hd, wordRefusal_of_command hd, h.refusedFor_eq]

/-- A command word leaves the same unit and responds the same on the same unit. -/
theorem SameUnit.execWord (h : SameUnit s t) (w : CmdWord) : ∃ u u' r,
    execWord w s = .next (u.emit r) ∧ execWord w t = .next (u'.emit r) ∧ SameUnit u u' ∧
      u.hostq = s.hostq ∧ u'.hostq = t.hostq ∧ u.rsps = s.rsps ∧ u'.rsps = t.rsps := by
  have href := h.wordRefusal_eq w
  cases hc : wordRefusal w s with
  | some c =>
    exact ⟨s, t, _, execWord_of_wordRefusal_some hc, execWord_of_wordRefusal_some (href.trans hc), h, rfl, rfl, rfl, rfl⟩
  | none =>
    obtain ⟨i, hd, hr, hw⟩ := execWord_of_wordRefusal_none hc
    refine ⟨Machine.effect i s, Machine.effect i t, rspWord 0 (answer i s), hw, ?_, h.effect i, effect_hostq s i,
      effect_hostq t i, effect_rsps s i, effect_rsps t i⟩
    rw [execWord_command t hd, exec_of_refusedFor_none ((h.refusedFor_eq i).trans hr), h.answer_eq]

/-- A step with the same event to come leaves the same unit and gives the same responses. -/
theorem SameUnit.step (h : SameUnit s s') (hq : s'.hostq = s.hostq) : ∃ t t' new,
    step s = .next t ∧ step s' = .next t' ∧ SameUnit t t' ∧ t'.hostq = t.hostq ∧
      t.rsps = s.rsps ++ new ∧ t'.rsps = s'.rsps ++ new := by
  match hs : s.hostq with
  | [] =>
    exact ⟨s, s', [], step_of_nil s hs, step_of_nil s' (hq.trans hs), h, hq, (List.append_nil _).symm,
      (List.append_nil _).symm⟩
  | .reset :: q =>
    exact ⟨_, _, [], step_of_reset s hs, step_of_reset s' (hq.trans hs), SameUnit.refl _, rfl, (List.append_nil _).symm,
      (List.append_nil _).symm⟩
  | .command w :: q =>
    obtain ⟨u, u', r, hu, hu', hsame, huq, huq', hur, hur'⟩ := (h.withHostq q).execWord w
    refine ⟨_, _, [r], (step_of_command s hs).trans hu, (step_of_command s' (hq.trans hs)).trans hu', hsame,
      huq'.trans huq.symm, ?_, ?_⟩
    · rw [State.emit_rsps, hur, State.withHostq_rsps]
    · rw [State.emit_rsps, hur', State.withHostq_rsps]

/-- Settles O11: by induction on the number of steps, each of which keeps the agreement. -/
theorem onlyTheEightItemsMatter : Obligations.OnlyTheEightItemsMatter := by
  intro n
  induction n with
  | zero =>
    exact fun s s' h hq => ⟨s, s', [], rfl, rfl, h, hq, (List.append_nil _).symm, (List.append_nil _).symm⟩
  | succ n ih =>
    intro s s' h hq
    obtain ⟨t, t', new, hs, hs', ht, htq, hr, hr'⟩ := h.step hq
    obtain ⟨u, u', new', hrun, hrun', hu, huq, hur, hur'⟩ := ih t t' ht htq
    refine ⟨u, u', new ++ new', (runSteps_succ hs).trans hrun, (runSteps_succ hs').trans hrun', hu, huq, ?_, ?_⟩
    · rw [hur, hr, List.append_assoc]
    · rw [hur', hr', List.append_assoc]

end Sys2Proof.Machine
end

section
/-! SUPPORT, O12 to O14. The invariant of R31: each register write keeps it under a condition of its own, so every command and
every step does; and the frames that reach each combination of `VALID` and `TAGNUM`. -/

namespace Sys2Proof.Machine

variable {s t : State} {i : Instr} {tag : List Byte}

/-! ### The register writes -/

theorem State.Inv.withBuf (h : s.Inv) {m : Memory} (hm : m.length ≤ 32) : (s.withBuf m).Inv :=
  ⟨hm, h.seq, h.clen, h.dseq, h.dseq_iff, h.reserved, h.short, h.valid⟩

theorem State.Inv.withSeq (h : s.Inv) {n : BitVec 7} (hn : n.toNat ≤ 99) : (s.withSeq n).Inv :=
  ⟨h.len, hn, h.clen, h.dseq, h.dseq_iff, h.reserved, h.short, h.valid⟩

theorem State.Inv.withCrc (h : s.Inv) (v : Half) : (s.withCrc v).Inv :=
  ⟨h.len, h.seq, h.clen, h.dseq, h.dseq_iff, h.reserved, h.short, h.valid⟩

theorem State.Inv.withHostq (h : s.Inv) (q : List HostEvent) : (s.withHostq q).Inv :=
  h.of_sameUnit (sameUnit_withHostq s q)

theorem State.Inv.emit (h : s.Inv) (r : RspWord) : (s.emit r).Inv := h.of_sameUnit (sameUnit_emit s r)

/-! ### The decoder -/

/-- `DSEQ` of a tag that is no number (R30). -/
theorem dseqOf_of_none (h : tagNumber tag = none) : dseqOf tag = 127 := by
  rw [dseqOf, h]
  rfl

/-- `DSEQ` of a numeric tag is its number, which seven bits hold (R30). -/
theorem dseqOf_of_some {n : Nat} (h : tagNumber tag = some n) : (dseqOf tag).toNat = n := by
  have hle := tagNumber_le h
  rw [dseqOf, h, BitVec.toNat_ofNat]
  exact Nat.mod_eq_of_lt (by omega)

/-- `DSEQ` is at most 99 exactly for a numeric tag, and otherwise 127 (R31 (d)). -/
theorem dseqOf_range (tag : List Byte) : ((dseqOf tag).toNat ≤ 99 ∨ (dseqOf tag).toNat = 127) ∧
    ((dseqOf tag).toNat ≤ 99 ↔ (tagNumber tag).isSome = true) := by
  cases h : tagNumber tag with
  | none => simp [dseqOf_of_none h]
  | some n => simp [dseqOf_of_some h, tagNumber_le h]

theorem State.Inv.decodedShort (h : s.Inv) : (decodedShort s).Inv := by
  obtain ⟨hvalid, htagnum, -, hreserved⟩ := statusWord_flags false false true
  have hdseq_iff : (127 : BitVec 7).toNat ≤ 99 ↔ tagnumFlag (statusWord false false true) = true := by
    rw [htagnum]
    decide
  exact ⟨h.len, h.seq, Nat.zero_le _, .inr rfl, hdseq_iff, hreserved, fun _ => ⟨hvalid, htagnum, rfl, rfl, rfl⟩,
    fun hv => absurd (hvalid.symm.trans hv) nofun⟩

/-- The chunk's length fits `CLEN`, and a frame that is not short leaves `SHORT` 0 (R131). -/
theorem State.Inv.decodedLong (h : s.Inv) : (decodedLong s).Inv := by
  obtain ⟨hvalid, htagnum, hshort, hreserved⟩ :=
    statusWord_flags (decodeFrame s.buf).valid (tagNumber (frameTag s.buf)).isSome false
  obtain ⟨hdseq, hdseq_iff⟩ := dseqOf_range (frameTag s.buf)
  have hclen : (BitVec.ofNat 5 (frameChunk s.buf).length).toNat ≤ 25 := by
    have hlen := h.len
    rw [BitVec.toNat_ofNat, length_frameChunk]
    omega
  exact ⟨h.len, h.seq, hclen, hdseq, hdseq_iff.trans (by rw [← htagnum]; rfl), hreserved,
    fun hs => absurd (hshort.symm.trans hs) nofun, fun _ => hshort⟩

theorem State.Inv.decoded (h : s.Inv) : (decoded s).Inv := by
  obtain hs | hl := Nat.lt_or_ge s.buf.length 7
  · exact decoded_of_short s hs ▸ h.decodedShort
  · exact decoded_of_long s hl ▸ h.decodedLong

/-! ### The commands and the step -/

theorem refusedFor_bufPush_eq_none {b : Byte} : refusedFor (.bufPush b) s = none ↔ s.buf.length < 32 := by
  show (if s.buf.length < 32 then none else some RefusalCause.overflow) = none ↔ _
  simp

theorem refusedFor_seqSet_eq_none {n : Byte} : refusedFor (.seqSet n) s = none ↔ n.toNat < 100 := by
  show (if n.toNat < 100 then none else some RefusalCause.range) = none ↔ _
  simp

theorem refusedFor_encRun_eq_none : refusedFor .encRun s = none ↔ s.buf.length ≤ 25 := by
  show (if 25 < s.buf.length then some RefusalCause.length else none) = none ↔ _
  simp

/-- A command that executes keeps the invariant: what it would break it for is what it is refused for. -/
theorem State.Inv.effect (h : s.Inv) (hr : refusedFor i s = none) : (effect i s).Inv := by
  cases i with
  | rd | bufRd | crcDig => exact h
  | bufClr => exact h.withBuf (Nat.zero_le _)
  | bufPush b =>
    have hroom := refusedFor_bufPush_eq_none.mp hr
    exact h.withBuf (by simpa using hroom)
  | crcClr | crcUpd | crcBuf => exact h.withCrc _
  | seqSet n =>
    have hn := refusedFor_seqSet_eq_none.mp hr
    refine h.withSeq ?_
    rw [BitVec.toNat_ofNat, indexOperand]
    omega
  | seqInc =>
    refine h.withSeq ?_
    rw [nextTag_toNat]
    omega
  | encRun =>
    have hroom := refusedFor_encRun_eq_none.mp hr
    exact (h.withBuf (by rw [length_encodeFrame]; omega)).withCrc _
  | decRun => exact h.decoded

theorem State.Inv.execWord (h : s.Inv) {w : CmdWord} (hw : execWord w s = .next t) : t.Inv := by
  obtain ⟨c, hc⟩ | ⟨i, -, hr, hc⟩ := execWord_cases w s
  · obtain rfl := Host.Outcome.next.inj (hc.symm.trans hw)
    exact h.emit _
  · obtain rfl := Host.Outcome.next.inj (hc.symm.trans hw)
    exact (h.effect hr).emit _

/-- Settles O13: the values of R34 have it. -/
theorem resetHasR31Invariant : Obligations.ResetHasR31Invariant := fun q =>
  have h : State.reset.Inv := ⟨by decide, by decide, by decide, by decide, by decide, by decide, by decide, by decide⟩
  h.withHostq q

/-- Settles O12: an idle step keeps it, a reset establishes it, and a command keeps it. -/
theorem stepKeepsR31Invariant : Obligations.StepKeepsR31Invariant := by
  intro s t h hstep
  obtain ⟨-, hs⟩ | ⟨q, -, hs⟩ | ⟨w, q, -, hs⟩ := step_cases s
  · obtain rfl := Host.Outcome.next.inj (hs.symm.trans hstep)
    exact h
  · obtain rfl := Host.Outcome.next.inj (hs.symm.trans hstep)
    exact (resetHasR31Invariant []).of_sameUnit (SameUnit.refl _)
  · exact (h.withHostq q).execWord (hs.symm.trans hstep)

theorem Reachable.inv (h : Reachable s) : s.Inv := by
  induction h with
  | reset q => exact resetHasR31Invariant q
  | step _ hstep ih => exact stepKeepsR31Invariant _ _ ih hstep

/-! ### Reaching a frame's decode results -/

/-- The events of a list of commands. -/
def commandEvents (is : List Instr) : List HostEvent := is.map fun i => .command (encode i)

theorem step_of_encode {q : List HostEvent} (hq : s.hostq = .command (encode i) :: q) :
    step s = .next (after i (s.withHostq q)) := by
  rw [step_of_command s hq, execWord_command _ (decode_encode i), exec_eq_after]

/-- A command leaves the same unit on the same unit. -/
theorem SameUnit.after (h : SameUnit s t) (i : Instr) : SameUnit (after i s) (after i t) := by
  rw [Machine.after, Machine.after, h.refusedFor_eq]
  cases refusedFor i s with
  | some c => exact h
  | none => exact h.effect i

/-- A command, executed or refused, leaves the events to come. -/
@[simp] theorem after_hostq (i : Instr) (s : State) : (after i s).hostq = s.hostq := by
  obtain ⟨c, -, hc⟩ | ⟨-, hc⟩ := exec_next_cases (exec_eq_after s i)
  · rw [hc]
    rfl
  · rw [hc]
    exact effect_hostq s i

/-- What a list of commands leaves of a unit, a run reaches when the host issues them. -/
theorem Reachable.afterAll {is : List Instr} (ht : Reachable t) (h : SameUnit s t) (hq : t.hostq = commandEvents is) :
    ∃ u, Reachable u ∧ SameUnit (afterAll is s) u := by
  induction is generalizing s t with
  | nil => exact ⟨t, ht, h⟩
  | cons i is ih =>
    have hnext := ht.step (step_of_encode (q := commandEvents is) hq)
    obtain ⟨u, hu, hsame⟩ := ih hnext ((h.trans (sameUnit_withHostq t _)).after i) (after_hostq i _)
    exact ⟨u, hu, (afterAll_cons s i is).symm ▸ hsame⟩

/-- Loading and decoding a frame leaves what `DEC.RUN` makes of it. -/
theorem sameUnit_afterAll_decode (f : List Byte) (hf : f.length ≤ 32) (s : State) :
    SameUnit (decoded { s with buf := f }) (afterAll (expand (.decode f)) s) := by
  obtain ⟨r, hr⟩ := afterAll_load s f hf
  rw [expand, afterAll_append, hr, afterAll_cons, afterAll_nil, after_of_none _ rfl]
  exact sameUnit_decoded ⟨rfl, rfl, rfl, rfl, rfl, rfl, rfl⟩

/-- The status of any frame is reached: load it and decode it. -/
theorem exists_reachable_status (f : List Byte) (hf : f.length ≤ 32) :
    ∃ s, Reachable s ∧ s.status = (decoded { State.reset with buf := f }).status := by
  obtain ⟨u, hu, hsame⟩ := (Reachable.reset (commandEvents (expand (.decode f)))).afterAll
    (sameUnit_withHostq .reset _) rfl
  obtain ⟨-, -, -, hstatus, -⟩ := (sameUnit_afterAll_decode f hf .reset).trans hsame
  exact ⟨u, hu, hstatus⟩

/-- Tag bytes that are no number, under the checksum 0, which is theirs: zero bytes leave a zero CRC (R94 (c)). -/
def validNoNumber : List Byte := [0x00, 0x00, 0x30, 0x30, 0x30, 0x30, 0x30]

/-- The tag 00 under the checksum 0, which is not its own. -/
def invalidNumber : List Byte := [0x30, 0x30, 0x30, 0x30, 0x30, 0x30, 0x30]

/-- Tag bytes that are no number, under a checksum that is none. -/
def invalidNoNumber : List Byte := [0x00, 0x00, 0x00, 0x00, 0x00, 0x00, 0x00]

/-- The frame of a given validity, with a numeric tag or not. -/
def frameWith (valid tagnum : Bool) : List Byte :=
  match valid, tagnum with
  | true, true => encodeFrame [] 0
  | true, false => validNoNumber
  | false, true => invalidNumber
  | false, false => invalidNoNumber

theorem decoded_frameWith_status (valid tagnum : Bool) :
    (decoded { State.reset with buf := frameWith valid tagnum }).status = statusWord valid tagnum false := by
  revert valid tagnum
  decide +kernel

/-- Settles O14: the clauses are the invariant's, and a frame of each kind shows that two flags are independent. -/
theorem reachableStatesMeetR31 : Obligations.ReachableStatesMeetR31 := by
  refine ⟨fun s hs => ?_, fun valid tagnum => ?_⟩
  · have h := hs.inv
    have hreserved : s.status.toNat / 8 = 0 := by
      rw [← reservedBits_toNat, h.reserved]
      rfl
    exact ⟨h.len, h.seq, h.clen, h.dseq, h.dseq_iff, by omega, h.short, h.valid⟩
  · have hlen : (frameWith valid tagnum).length ≤ 32 := by
      cases valid <;> cases tagnum <;> decide
    obtain ⟨s, hs, hstatus⟩ := exists_reachable_status (frameWith valid tagnum) hlen
    rw [decoded_frameWith_status] at hstatus
    obtain ⟨hv, ht, -⟩ := statusWord_flags valid tagnum false
    exact ⟨s, hs, by rw [hstatus]; exact hv, by rw [hstatus]; exact ht⟩

end Sys2Proof.Machine
end

section
/-! SUPPORT, O28 to O31, O35 to O37. The frame of each command: the items its effect leaves alone, and the buffer as an append
that changes no byte outside what it stores. -/

namespace Sys2Proof.Machine

variable {s t : State} {i : Instr} {α : Type}

/-! ### What a command keeps -/

/-- What the effect keeps, and a response does not show, the command keeps, executed or refused. -/
theorem exec_keeps (f : State → α) (hemit : ∀ u r, f (State.emit u r) = f u) (heffect : f (effect i s) = f s)
    (h : exec i s = .next t) : f t = f s := by
  obtain ⟨c, -, rfl⟩ | ⟨-, rfl⟩ := exec_next_cases h
  · exact hemit _ _
  · exact (hemit _ _).trans heffect

/-- What every command of a list keeps, the list keeps. -/
theorem execAll_keeps {is : List Instr} (f : State → α) (hemit : ∀ u r, f (State.emit u r) = f u)
    (heffect : ∀ i ∈ is, ∀ u, f (effect i u) = f u) (h : execAll is s = .next t) : f t = f s := by
  induction is generalizing s with
  | nil =>
    obtain rfl := Host.Outcome.next.inj h
    rfl
  | cons i is ih =>
    rw [execAll_cons] at h
    exact (ih (fun j hj => heffect j (List.mem_cons_of_mem i hj)) h).trans
      (exec_keeps f hemit (heffect i List.mem_cons_self s) (exec_eq_after s i))

/-- The commands of the CRC generator that execute on every state write `CRC` alone (R164). -/
theorem exec_writes_crc {b : Byte} (hi : i ∈ [Instr.crcClr, .crcUpd b, .crcBuf]) (h : exec i s = .next t) :
    ∃ v r, t = { s with crc := v, rsps := r } := by
  simp only [List.mem_cons, List.not_mem_nil, or_false] at hi
  obtain rfl | rfl | rfl := hi <;> exact ⟨_, _, (Host.Outcome.next.inj h).symm⟩

/-- The tag's two commands write `SEQ` alone, and `SEQ.SET` refused writes nothing (R121, R122). -/
theorem exec_writes_seq {n : Byte} (hi : i ∈ [Instr.seqSet n, .seqInc]) (h : exec i s = .next t) :
    ∃ v r, t = { s with seq := v, rsps := r } := by
  simp only [List.mem_cons, List.not_mem_nil, or_false] at hi
  obtain ⟨c, -, rfl⟩ | ⟨-, rfl⟩ := exec_next_cases h
  · exact ⟨s.seq, _, rfl⟩
  · obtain rfl | rfl := hi <;> exact ⟨_, _, rfl⟩

/-- Settles O28: the items each command writes, everything else being as it was. -/
theorem registerCommandsFrame : Obligations.RegisterCommandsFrame := by
  refine ⟨fun b i s t hi h => ?_, fun n i s t hi h => ?_, fun s t h => ?_⟩
  · obtain ⟨v, r, rfl⟩ := exec_writes_crc hi h
    exact ⟨rfl, rfl, rfl, rfl, rfl, rfl, rfl, fun _ => rfl⟩
  · obtain ⟨v, r, rfl⟩ := exec_writes_seq hi h
    exact ⟨rfl, rfl, rfl, rfl, rfl, rfl, rfl, fun _ => rfl⟩
  · obtain rfl := Host.Outcome.next.inj ((exec_decRun s).symm.trans h)
    have hbuf := decoded_buf s
    refine ⟨decoded_seq s, decoded_hostq s, ?_, fun hs => ?_, fun a => ?_⟩
    · rw [lenReg, State.emit_buf, hbuf, lenReg]
    · rw [State.emit_crc, decoded_of_short s hs]
      rfl
    · rw [readByte, State.emit_buf, hbuf, readByte]

/-! ### The buffer as an append -/

/-- An append changes what is read only where it stores. -/
theorem Memory.read_append_outside (m : Memory) (bs : List Byte) {a : Nat}
    (h : a < m.length ∨ m.length + bs.length ≤ a) : (m.append bs).read a = m.read a := by
  obtain h | h := h
  · exact m.read_append_below bs h
  · rw [m.read_append_above bs (by omega), Memory.read, List.getElem?_eq_none (by omega), List.getElem?_eq_none (by omega)]

/-- `ENC.RUN` appends the tag's and the checksum's seven digits (R110 (a), R123). -/
theorem encodeFrame_eq_append (m : Memory) (n : Nat) :
    encodeFrame m n = m.append (dec2 n ++ dec5 (crc16 (coveredBytes m n))) := by
  rw [encodeFrame, coveredBytes, Memory.append, List.append_assoc]

/-- A command refused in a state leaves every byte. -/
theorem readByte_of_refused {c : RefusalCause} (hr : refusedFor i s = some c) (h : exec i s = .next t) (a : Nat) :
    readByte t a = readByte s a := by
  obtain rfl := Host.Outcome.next.inj ((exec_of_refusedFor_some hr).symm.trans h)
  rfl

/-- Settles O29: what the two appends and the clear leave, executed or refused. -/
theorem storingCommandsFrame : Obligations.StoringCommandsFrame := by
  refine ⟨fun b s t h => ?push, fun s t h => ?enc, fun s t h => ?clr⟩
  case push =>
    obtain ⟨c, hr, rfl⟩ | ⟨hr, rfl⟩ := exec_next_cases h
    · have hfull : ¬ s.buf.length < 32 := fun hl => by simp [refusedFor_bufPush_eq_none.mpr hl] at hr
      exact ⟨rfl, rfl, rfl, rfl, rfl, rfl, rfl, fun _ _ => rfl, fun _ _ => rfl, fun hl => absurd hl hfull⟩
    · have hroom := refusedFor_bufPush_eq_none.mp hr
      refine ⟨rfl, rfl, rfl, rfl, rfl, rfl, rfl, fun a ha => ?_, fun hl => absurd hroom (Nat.not_lt.mpr hl),
        fun _ => s.buf.read_push b⟩
      rw [appendIndex] at ha
      exact s.buf.read_append_outside [b] (by rw [List.length_singleton]; omega)
  case enc =>
    obtain ⟨c, hr, rfl⟩ | ⟨hr, rfl⟩ := exec_next_cases h
    · exact ⟨rfl, rfl, rfl, rfl, rfl, rfl, fun _ _ => rfl, fun _ => ⟨rfl, fun _ => rfl⟩⟩
    · have hroom := refusedFor_encRun_eq_none.mp hr
      refine ⟨rfl, rfl, rfl, rfl, rfl, rfl, fun a ha => ?_, fun hl => absurd hl (Nat.not_lt.mpr hroom)⟩
      show Memory.read (encodeFrame s.buf s.seq.toNat) a = s.buf.read a
      rw [appendIndex] at ha
      rw [encodeFrame_eq_append]
      exact s.buf.read_append_outside _ (by simpa using ha)
  case clr =>
    obtain rfl := Host.Outcome.next.inj ((exec_bufClr s).symm.trans h)
    exact ⟨rfl, rfl, rfl, rfl, rfl, rfl, rfl, Memory.read_clear⟩

/-! ### Which command writes an item -/

theorem command_of_buf_ne (h : (effect i s).buf ≠ s.buf) : i = .bufClr ∨ (∃ b, i = .bufPush b) ∨ i = .encRun := by
  cases i with
  | bufClr => exact .inl rfl
  | bufPush b => exact .inr (.inl ⟨b, rfl⟩)
  | encRun => exact .inr (.inr rfl)
  | decRun => exact absurd (decoded_buf s) h
  | rd | bufRd | crcClr | crcUpd | crcBuf | crcDig | seqSet | seqInc => exact absurd rfl h

theorem command_of_seq_ne (h : (effect i s).seq ≠ s.seq) : (∃ n, i = .seqSet n) ∨ i = .seqInc := by
  cases i with
  | seqSet n => exact .inl ⟨n, rfl⟩
  | seqInc => exact .inr rfl
  | decRun => exact absurd (decoded_seq s) h
  | rd | bufClr | bufPush | bufRd | crcClr | crcUpd | crcBuf | crcDig | encRun => exact absurd rfl h

theorem command_of_crc_ne (h : (effect i s).crc ≠ s.crc) :
    i = .crcClr ∨ (∃ b, i = .crcUpd b) ∨ i = .crcBuf ∨ i = .encRun ∨ i = .decRun := by
  cases i with
  | crcClr => exact .inl rfl
  | crcUpd b => exact .inr (.inl ⟨b, rfl⟩)
  | crcBuf => exact .inr (.inr (.inl rfl))
  | encRun => exact .inr (.inr (.inr (.inl rfl)))
  | decRun => exact .inr (.inr (.inr (.inr rfl)))
  | rd | bufClr | bufPush | bufRd | crcDig | seqSet | seqInc => exact absurd rfl h

/-- The four registers the decoder reports in (R131). -/
def decoderReport (s : State) : Half × BitVec 5 × Half × BitVec 7 := (s.status, s.clen, s.tag, s.dseq)

/-- `DEC.RUN` alone writes the decode results. -/
theorem decoderReport_effect (hi : i ≠ .decRun) (s : State) : decoderReport (effect i s) = decoderReport s := by
  cases i with
  | decRun => exact absurd rfl hi
  | rd | bufClr | bufPush | bufRd | crcClr | crcUpd | crcBuf | crcDig | seqSet | seqInc | encRun => rfl

theorem decoderReport_eq_iff : decoderReport t = decoderReport s ↔
    t.status = s.status ∧ t.clen = s.clen ∧ t.tag = s.tag ∧ t.dseq = s.dseq := by
  simp [decoderReport]

/-- The high byte of a command's word. -/
theorem encode_toNat_div (i : Instr) : (encode i).toNat / 256 = (opcodeOf i).toNat := by
  rw [← opField_toNat, opField_encode]

/-- Settles O30: a word that changes an item is a command whose effect does, and those are listed. -/
theorem onlyListedCommandsWrite : Obligations.OnlyListedCommandsWrite := by
  intro w s t hstep
  rw [step_offer] at hstep
  obtain ⟨c, hw⟩ | ⟨i, hd, -, hw⟩ := execWord_cases w s
  · obtain rfl := Host.Outcome.next.inj (hw.symm.trans hstep)
    exact ⟨fun h => absurd rfl h, fun h => absurd rfl h, fun h => absurd rfl h, fun h => by simp at h⟩
  · obtain rfl := Host.Outcome.next.inj (hw.symm.trans hstep)
    obtain rfl := decode_eq_command_iff.mp hd
    refine ⟨fun h => ?_, fun h => ?_, fun h => ?_, fun h => ?_⟩
    · obtain rfl | ⟨b, rfl⟩ | rfl := command_of_buf_ne h
      exacts [.inl rfl, .inr (.inl (encode_toNat_div _)), .inr (.inr rfl)]
    · obtain ⟨n, rfl⟩ | rfl := command_of_seq_ne h
      exacts [.inl (encode_toNat_div _), .inr rfl]
    · obtain rfl | ⟨b, rfl⟩ | rfl | rfl | rfl := command_of_crc_ne h
      exacts [.inl rfl, .inr (.inl (encode_toNat_div _)), .inr (.inr (.inl rfl)), .inr (.inr (.inr (.inl rfl))),
        .inr (.inr (.inr (.inr rfl)))]
    · have hi : i = .decRun := by
        by_contra hi
        obtain ⟨hstatus, hclen, htag, hdseq⟩ := decoderReport_eq_iff.mp (decoderReport_effect hi s)
        simp [hstatus, hclen, htag, hdseq] at h
      rw [hi]
      rfl

/-- A byte that reads stays as it is under every effect but that of `BUF.CLR` (R23). -/
theorem readByte_effect {a : Nat} {b : Byte} (hi : i ≠ .bufClr) (hb : readByte s a = some b) :
    readByte (effect i s) a = some b := by
  have hlt : a < s.buf.length := (s.buf.read_isSome_iff a).mp (Option.isSome_of_eq_some hb)
  cases i with
  | bufClr => exact absurd rfl hi
  | bufPush c => exact (s.buf.read_append_below [c] hlt).trans hb
  | encRun =>
    show Memory.read (encodeFrame s.buf s.seq.toNat) a = some b
    rw [encodeFrame_eq_append]
    exact (s.buf.read_append_below _ hlt).trans hb
  | decRun =>
    rw [effect, readByte, decoded_buf]
    exact hb
  | rd | bufRd | crcClr | crcUpd | crcBuf | crcDig | seqSet | seqInc => exact hb

/-- Settles O31: a refused word leaves the byte, and so does every effect but that of `BUF.CLR`. -/
theorem noCommandChangesAStoredByte : Obligations.NoCommandChangesAStoredByte := by
  intro w s t a b hstep hb
  rw [step_offer] at hstep
  refine ⟨fun hne => ?_, fun heq => ?_⟩
  · obtain ⟨c, hw⟩ | ⟨i, hd, -, hw⟩ := execWord_cases w s
    · obtain rfl := Host.Outcome.next.inj (hw.symm.trans hstep)
      exact hb
    · obtain rfl := Host.Outcome.next.inj (hw.symm.trans hstep)
      have hi : i ≠ .bufClr := fun hi => hne ((decode_eq_command_iff.mp hd).trans (by rw [hi]; rfl))
      exact readByte_effect hi hb
  · obtain rfl : w = encode .bufClr := heq
    rw [execWord_command s (decode_encode _), exec_bufClr] at hstep
    obtain rfl := Host.Outcome.next.inj hstep
    exact Memory.read_clear a

/-! ### The shared CRC, the decode results, and running a command twice -/

/-- Settles O35: none of the three reads the CRC it replaces. -/
theorem sharedCrcIsOverwrittenUnread : Obligations.SharedCrcIsOverwrittenUnread := by
  refine ⟨fun i s t t' v hi h h' => ?_, fun i b s t hi h => ?_⟩
  · have hsame : exec i { s with crc := v } = exec i s := by
      obtain rfl | ⟨rfl, hl⟩ | ⟨rfl, hl⟩ := hi
      · rfl
      · rw [exec_encRun_of_le hl, exec_encRun_of_le (s := { s with crc := v }) hl]
        rfl
      · rw [exec_decRun, exec_decRun, decoded_of_long s hl, decoded_of_long { s with crc := v } hl]
        rfl
    exact Host.Outcome.next.inj (h'.symm.trans (hsame.trans h))
  · have hmem : i ∈ [Instr.crcClr, .crcUpd b, .crcBuf] := by
      obtain rfl | rfl := hi <;> simp
    obtain ⟨v, r, rfl⟩ := exec_writes_crc hmem h
    rfl

/-- Settles O36: no command of the run writes them, and a frame decoded and then cleared shows that they outlast it. -/
theorem decodeResultsStayUntilDecRun : Obligations.DecodeResultsStayUntilDecRun := by
  refine ⟨fun is s t hnot h => ?_, rfl, rfl, ?_⟩
  · have hne : ∀ i ∈ is, i ≠ .decRun := fun i hi heq => hnot (heq ▸ hi)
    exact decoderReport_eq_iff.mp
      (execAll_keeps decoderReport (fun _ _ => rfl) (fun i hi => decoderReport_effect (hne i hi)) h)
  · have hstatus := decoded_frameWith_status true true
    exact ⟨{ State.reset with buf := frameWith true true }, _, execAll_eq_afterAll _ _, hstatus, rfl⟩

/-- Decoding what has been decoded changes nothing more (R167). -/
theorem decoded_decoded (s : State) : decoded (decoded s) = decoded s := by
  obtain hs | hl := Nat.lt_or_ge s.buf.length 7
  · rw [decoded_of_short (decoded s) (by rwa [decoded_buf]), decoded_of_short s hs]
    rfl
  · rw [decoded_of_long (decoded s) (by rwa [decoded_buf]), decoded_of_long s hl]
    rfl

/-- Settles O37: by the room for a second frame, by decoding twice, and by counting modulo 100. -/
theorem rerunningCommands : Obligations.RerunningCommands := by
  refine ⟨fun s t hl h => ?_, fun s t hlo hhi h => ?_, fun s => ?_, fun s t u ht hu => ?_⟩
  · have hlen : (encoded s).buf.length ≤ 25 := by
      rw [encoded_buf, length_encodeFrame]
      omega
    rw [execAll_cons_next (exec_encRun_of_le (s := s) (by omega)),
      execAll_cons_next (exec_encRun_of_le (s := (encoded s).emit _) hlen)] at h
    obtain rfl := Host.Outcome.next.inj h
    refine ⟨rfl, ?_⟩
    rw [State.emit_buf, encoded_buf, State.emit_buf, encoded_buf, length_encodeFrame, length_encodeFrame]
  · have hlen : 25 < (encoded s).buf.length := by
      rw [encoded_buf, length_encodeFrame]
      omega
    have hr : refusedFor .encRun (encoded s) = some .length := if_pos hlen
    rw [execAll_cons_next (exec_encRun_of_le hhi),
      execAll_cons_next (exec_refused_of_encode_eq .length rfl ((refusedFor_emit _ _ _).trans hr))] at h
    obtain rfl := Host.Outcome.next.inj h
    exact ⟨rfl, _, List.append_assoc _ _ _⟩
  · refine ⟨_, rspWord 0 (decoded s).status, exec_decRun s, ?_, ?_⟩
    · rw [State.emit_rsps, decoded_rsps]
    · rw [exec_decRun, decoded_status_emit, decoded_decoded, ← effect, effect_emit, effect, decoded_decoded]
      rfl
  · obtain rfl := Host.Outcome.next.inj ((exec_seqInc s).symm.trans ht)
    obtain rfl := Host.Outcome.next.inj ((exec_seqInc _).symm.trans hu)
    intro heq
    have hnat : (nextTag (nextTag s.seq)).toNat = (nextTag s.seq).toNat := congrArg BitVec.toNat heq
    rw [nextTag_toNat, nextTag_toNat] at hnat
    omega

end Sys2Proof.Machine
end

section
/-! SUPPORT, O46 and O48. The CRC as a linear function over XOR, as a shift register, and by a table. -/

namespace Sys2Proof.Machine

/-! ### Linearity -/

/-- The fold is linear in the accumulator and the bytes together (R94 (d)). -/
theorem foldl_crcStep_zipWith_xor {s t : List Byte} (hl : s.length = t.length) (c d : Half) :
    (List.zipWith (· ^^^ ·) s t).foldl crcStep (c ^^^ d) = s.foldl crcStep c ^^^ t.foldl crcStep d := by
  induction s generalizing t c d with
  | nil =>
    obtain rfl := List.length_eq_zero_iff.mp hl.symm
    rfl
  | cons a s ih =>
    match t, hl with
    | b :: t, hl =>
      simp only [List.zipWith_cons_cons, List.foldl_cons, crcStep_xor]
      exact ih (Nat.succ.inj hl) _ _

/-- Settles O46: the fold's linearity, from the zero accumulator on both sides. -/
theorem crcIsLinear : Obligations.CrcIsLinear := by
  intro s t hl
  rw [crc16_eq_foldl, crc16_eq_foldl, crc16_eq_foldl]
  exact foldl_crcStep_zipWith_xor hl 0 0

/-! ### The shift register (R93 (b)) -/

/-- A round on an accumulator with a byte's bits XORed in feeds the top one to the shift register and moves the others up. -/
theorem crcShift_xor_eq_serialBit (reg y : Half) :
    crcShift 0x1021 (reg ^^^ y) = serialBit reg (y.getLsbD 15) ^^^ (y <<< 1) := by
  have hpoly : (1#16 ||| (1#16 <<< 5) ||| (1#16 <<< 12) : Half) = 0x1021 := by decide
  rw [crcShift, serialBit, hpoly, BitVec.getLsbD_xor, BitVec.shiftLeft_xor_distrib, Bool.xor_comm]
  split
  · ac_rfl
  · rw [BitVec.xor_zero]

/-- Eight rounds feed in the byte's bits from bit 7 down, and then nothing of it is left. -/
theorem crcStep_eq_serial (c : Half) (b : Byte) :
    crcStep c b = [7, 6, 5, 4, 3, 2, 1, 0].foldl (fun reg k => serialBit reg (b.getLsbD k)) c := by
  simp only [crcStep, crcStepBy, params_crcPoly, crcShifts, crcShift_xor_eq_serialBit]
  simp

/-! ### The table (R93 (c)) -/

/-- Rounds on a value whose top bits are 0 only shift it. -/
theorem crcShifts_eq_shiftLeft {k : Nat} {x : Half} (hx : ∀ i, 16 ≤ i + k → x.getLsbD i = false) :
    crcShifts 0x1021 k x = x <<< k := by
  induction k generalizing x with
  | zero => rw [crcShifts, BitVec.shiftLeft_zero]
  | succ k ih =>
    have hround : crcShift 0x1021 x = x <<< 1 := by
      rw [crcShift, hx 15 (by omega)]
      rfl
    rw [crcShifts, hround, ih, ← BitVec.shiftLeft_add, Nat.add_comm]
    intro i hi
    rw [BitVec.getLsbD_shiftLeft, hx (i - 1) (by omega), Bool.and_false]

/-- The byte enters at the accumulator's high byte; the low byte stands beside it. -/
theorem xor_byte_eq (c : Half) (b : Byte) : c ^^^ (b.zeroExtend 16 <<< 8) =
    (((c >>> 8).truncate 8 ^^^ b).zeroExtend 16 <<< 8) ^^^ (c.truncate 8 : Byte).zeroExtend 16 := by
  apply BitVec.eq_of_getLsbD_eq
  intro i hi
  by_cases h8 : i < 8
  · simp [hi, h8]
  · simp [hi, h8, show 8 + (i - 8) = i by omega, show i - 8 < 8 by omega, Bool.xor_comm]

/-- Eight rounds shift the low byte up. -/
theorem crcShifts_lowByte (c : Half) : crcShifts 0x1021 8 ((c.truncate 8 : Byte).zeroExtend 16) = c <<< 8 := by
  rw [crcShifts_eq_shiftLeft]
  · apply BitVec.eq_of_getLsbD_eq
    intro i hi
    by_cases h8 : i < 8
    · simp [h8]
    · simp [hi, h8, show i - 8 < 8 by omega, BitVec.getLsbD_eq_getElem (x := c) (show i - 8 < 16 by omega)]
  · intro i hi
    rw [BitVec.getLsbD_setWidth, BitVec.getLsbD_of_ge _ i (by omega), Bool.and_false]

/-- The high byte and the operand index the table, the low byte is shifted up. -/
theorem crcStep_eq_table (c : Half) (b : Byte) :
    crcStep c b = (c <<< 8) ^^^ crcStep 0 ((c >>> 8).truncate 8 ^^^ b) := by
  have hzero (x : Byte) : crcStep 0 x = crcShifts 0x1021 8 (x.zeroExtend 16 <<< 8) := by
    rw [crcStep, crcStepBy]
    exact congrArg _ (BitVec.zero_xor)
  rw [hzero, crcStep, crcStepBy, xor_byte_eq, params_crcPoly, crcShifts_xor, crcShifts_lowByte, BitVec.xor_comm]

/-- Settles O48: both views for every accumulator and byte, and three entries of the table. -/
theorem crcSerialAndTableViews : Obligations.CrcSerialAndTableViews :=
  ⟨crcStep_eq_serial, crcStep_eq_table, by decide, by decide, by decide⟩

end Sys2Proof.Machine
end

section
/-! SUPPORT and O47. The CRC as the remainder of a polynomial over GF(2): modulo the generator a round is a multiplication by
`x` (R93 (a)). -/

namespace Sys2Proof.Machine

open Polynomial

variable {n : Nat}

/-! ### Bit strings as polynomials -/

theorem bitsPoly_xor (a b : BitVec n) : bitsPoly (a ^^^ b) = bitsPoly a + bitsPoly b := by
  rw [bitsPoly, bitsPoly, bitsPoly, ← Finset.sum_add_distrib]
  refine Finset.sum_congr rfl fun i _ => ?_
  rw [BitVec.getLsbD_xor]
  cases a.getLsbD i <;> cases b.getLsbD i <;> simp [CharTwo.add_self_eq_zero]

theorem bitsPoly_degree_lt (a : BitVec n) : (bitsPoly a).degree < n := by
  rw [bitsPoly, Polynomial.degree_lt_iff_coeff_zero]
  intro m hm
  rw [finsetSum_coeff]
  refine Finset.sum_eq_zero fun i hi => ?_
  have hne : m ≠ i := ((Finset.mem_range.mp hi).trans_le hm).ne'
  split
  · rw [coeff_X_pow, if_neg hne]
  · rfl

/-- A byte in the high half of 16 bits. -/
theorem bitsPoly_highByte (b : Byte) : bitsPoly (b.zeroExtend 16 <<< 8 : Half) = bitsPoly b * X ^ 8 := by
  simp [bitsPoly, Finset.sum_range_succ, add_mul, ite_mul, ← pow_add, ← pow_succ']

/-! ### The generator -/

/-- The generator of R93 (a). -/
noncomputable def crcGenerator : (ZMod 2)[X] := X ^ 16 + X ^ 12 + X ^ 5 + 1

theorem crcGenerator_eq : crcGenerator = X ^ 16 + bitsPoly (0x1021 : Half) := by
  have h : bitsPoly (0x1021 : Half) = 1 + X ^ 5 + X ^ 12 := by
    simp [bitsPoly, Finset.sum_range_succ]
  rw [h, crcGenerator]
  ring

theorem crcGenerator_monic : crcGenerator.Monic := by
  unfold crcGenerator
  monicity!

theorem crcGenerator_degree : crcGenerator.degree = 16 := by
  unfold crcGenerator
  compute_degree!

/-- A shift by one multiplies by `x`, but for the bit shifted out. -/
theorem X_mul_bitsPoly (x : Half) : X * bitsPoly x = bitsPoly (x <<< 1) + if x.getLsbD 15 then X ^ 16 else 0 := by
  rw [bitsPoly, bitsPoly, Finset.sum_range_succ, Finset.sum_range_succ' _ 15, mul_add, Finset.mul_sum]
  have hlow : ∀ i ∈ Finset.range 15, (X * if x.getLsbD i then X ^ i else 0 : (ZMod 2)[X]) =
      if (x <<< 1).getLsbD (i + 1) then X ^ (i + 1) else 0 := by
    intro i hi
    have hi := Finset.mem_range.mp hi
    have hbit : (x <<< 1).getLsbD (i + 1) = x.getLsbD i := by
      simp [show i + 1 < 16 by omega, BitVec.getLsbD_eq_getElem (x := x) (show i < 16 by omega)]
    rw [hbit, mul_ite, mul_zero, pow_succ']
  rw [Finset.sum_congr rfl hlow, mul_ite, mul_zero, ← pow_succ']
  simp

/-- The residue of a polynomial modulo the generator. -/
noncomputable def crcResidue : (ZMod 2)[X] →+* AdjoinRoot crcGenerator := AdjoinRoot.mk crcGenerator

theorem crcResidue_X_pow : crcResidue (X ^ 16) = crcResidue (bitsPoly (0x1021 : Half)) := by
  have h : (X ^ 16 : (ZMod 2)[X]) = crcGenerator + bitsPoly (0x1021 : Half) := by
    rw [crcGenerator_eq, add_assoc, CharTwo.add_self_eq_zero, add_zero]
  rw [h, map_add, crcResidue, AdjoinRoot.mk_self, zero_add]

/-- A round of R91 multiplies the residue by `x`: the bit shifted out comes back as the polynomial. -/
theorem crcResidue_crcShift (x : Half) :
    crcResidue (bitsPoly (crcShift 0x1021 x)) = crcResidue (X * bitsPoly x) := by
  rw [X_mul_bitsPoly, map_add, crcShift]
  split
  · rw [bitsPoly_xor, map_add, crcResidue_X_pow]
  · rw [map_zero, add_zero]

theorem crcResidue_crcShifts (k : Nat) (x : Half) :
    crcResidue (bitsPoly (crcShifts 0x1021 k x)) = crcResidue (X ^ k * bitsPoly x) := by
  induction k generalizing x with
  | zero => rw [crcShifts, pow_zero, one_mul]
  | succ k ih => rw [crcShifts, ih, map_mul, crcResidue_crcShift, ← map_mul, ← mul_assoc, ← pow_succ]

/-- A byte step appends eight coefficients to the message. -/
theorem crcResidue_crcStep (c : Half) (b : Byte) :
    crcResidue (bitsPoly (crcStep c b)) = crcResidue (bitsPoly c * X ^ 8 + bitsPoly b * X ^ 16) := by
  rw [crcStep, crcStepBy, params_crcPoly, crcResidue_crcShifts, bitsPoly_xor, bitsPoly_highByte]
  congr 1
  ring

theorem messagePoly_append (s : List Byte) (b : Byte) :
    messagePoly (s ++ [b]) = messagePoly s * X ^ 8 + bitsPoly b := by
  rw [messagePoly, List.foldl_append]
  rfl

/-- The CRC is congruent to the message times `x^16`, by induction on the message from its end. -/
theorem crcResidue_crc16 (s : List Byte) : crcResidue (bitsPoly (crc16 s)) = crcResidue (messagePoly s * X ^ 16) := by
  induction s using List.reverseRecOn with
  | nil =>
    have hzero : bitsPoly (crc16 []) = 0 := Finset.sum_eq_zero fun i _ => by simp [crc16_eq_foldl]
    rw [hzero, messagePoly, List.foldl_nil, zero_mul]
  | append_singleton s b ih =>
    rw [crc16_append, List.foldl_cons, List.foldl_nil, crcResidue_crcStep, map_add, map_mul, ih, ← map_mul, ← map_add,
      messagePoly_append]
    congr 1
    ring

/-- Settles O47: congruent to the message, and of lower degree than the generator. -/
theorem crcIsPolynomialRemainder : Obligations.CrcIsPolynomialRemainder := by
  intro s
  have hdvd : crcGenerator ∣ bitsPoly (crc16 s) - messagePoly s * X ^ 16 := AdjoinRoot.mk_eq_mk.mp (crcResidue_crc16 s)
  have hlow : bitsPoly (crc16 s) %ₘ crcGenerator = bitsPoly (crc16 s) := by
    rw [modByMonic_eq_self_iff crcGenerator_monic, crcGenerator_degree]
    exact bitsPoly_degree_lt _
  exact hlow.symm.trans (modByMonic_eq_of_dvd_sub crcGenerator_monic hdvd)

end Sys2Proof.Machine
end

section
/-! SUPPORT, O39, O41 to O43, O45. The codec: the checksum's digits spell the checksum, a frame gives back what it was made of, and
`DEC.RUN` reports it. -/

namespace Sys2Proof.Machine

variable {s t : State} {c : List Byte} {n : Nat}

/-! ### The checksum's digits (R65) -/

/-- The number a row of digits spells. -/
def digitsValue (bs : List Byte) : Nat := bs.foldl (fun n b => 10 * n + (b.toNat - 0x30)) 0

theorem digitsValue_dec5 (v : Half) : digitsValue (dec5 v) = v.toNat := by
  have hv := v.isLt
  simp only [digitsValue, dec5_eq, List.foldl_cons, List.foldl_nil, asciiDigit_toNat]
  omega

theorem dec5_injective {v w : Half} (h : dec5 v = dec5 w) : v = w := by
  apply BitVec.eq_of_toNat_eq
  rw [← digitsValue_dec5, h, digitsValue_dec5]

theorem isDigit_of_mem_dec5 {v : Half} {b : Byte} (hb : b ∈ dec5 v) : isDigit b = true := by
  obtain ⟨k, -, rfl⟩ := List.mem_map.mp hb
  exact isDigit_asciiDigit _

/-- A digit byte with the value of a number's units is that number's ASCII digit. -/
theorem asciiDigit_eq_of_toNat {m : Nat} {b : Byte} (h : b.toNat = 0x30 + m % 10) : asciiDigit m = b :=
  BitVec.eq_of_toNat_eq ((asciiDigit_toNat m).trans h.symm)

/-- Five digits that spell a 16-bit number are its `dec5`. -/
theorem dec5_digitsValue {bs : List Byte} (hlen : bs.length = 5) (hdigits : ∀ b ∈ bs, 0x30 ≤ b.toNat ∧ b.toNat ≤ 0x39)
    (hle : digitsValue bs ≤ 65535) : dec5 (BitVec.ofNat 16 (digitsValue bs)) = bs := by
  match bs, hlen with
  | [b0, b1, b2, b3, b4], _ =>
    simp only [List.forall_mem_cons, List.not_mem_nil, false_imp_iff, implies_true, and_true] at hdigits
    have hval : (BitVec.ofNat 16 (digitsValue [b0, b1, b2, b3, b4])).toNat = digitsValue [b0, b1, b2, b3, b4] := by
      rw [BitVec.toNat_ofNat]
      exact Nat.mod_eq_of_lt (by omega)
    rw [dec5_eq, hval]
    simp only [digitsValue, List.foldl_cons, List.foldl_nil]
    congr 1
    · exact asciiDigit_eq_of_toNat (by omega)
    congr 1
    · exact asciiDigit_eq_of_toNat (by omega)
    congr 1
    · exact asciiDigit_eq_of_toNat (by omega)
    congr 1
    · exact asciiDigit_eq_of_toNat (by omega)
    congr 1
    exact asciiDigit_eq_of_toNat (by omega)

/-- Settles O39: the digits by their index, and the number they spell, which determines them. -/
theorem dec5IsFiveDigitsInjective : Obligations.Dec5IsFiveDigitsInjective := by
  refine ⟨fun v k hk => ?_, length_dec5, fun v w => dec5_injective, fun bs => ⟨?_, fun ⟨hlen, hdigits, hle⟩ => ?_⟩⟩
  · rw [dec5_getElem? v (show 4 - k < 5 by omega), show 4 - (4 - k) = k by omega]
    rfl
  · rintro ⟨v, rfl⟩
    refine ⟨length_dec5 v, fun b hb => (isDigit_iff b).mp (isDigit_of_mem_dec5 hb), ?_⟩
    have hval := digitsValue_dec5 v
    have hv := v.isLt
    rw [digitsValue] at hval
    omega
  · exact ⟨_, dec5_digitsValue hlen hdigits hle⟩

/-! ### The round trip of the codec (R62, R63) -/

theorem decodeFrame_encodeFrame (c : List Byte) (n : Nat) :
    decodeFrame (encodeFrame c n) = { chunk := c, tag := dec2 n, valid := true } := by
  obtain ⟨hchunk, htag, hck⟩ := frame_of_encode c n
  rw [decodeFrame, frameCrc, hchunk, htag, hck, coveredBytes, beq_self_eq_true]

/-- Settles O41: the fields of the frame, and the tag's digits read back. -/
theorem decodeOfEncodedFrame : Obligations.DecodeOfEncodedFrame := by
  intro c n hc hn
  have hd := decodeFrame_encodeFrame c n
  refine ⟨hd, by rw [hd, tagNumber_dec2 hn], ?_, ?_⟩ <;> rw [length_encodeFrame] <;> omega

/-- `DEC.RUN` on an encoded frame: valid, with a numeric tag, and the CRC the encoder left (R124). -/
theorem decoded_of_encoded (hb : s.buf = encodeFrame c n) (hn : n ≤ 99) : decoded s =
    (s.withDecode (statusWord true true false) (BitVec.ofNat 5 c.length) (tagWord (dec2 n)) (BitVec.ofNat 7 n)).withCrc
      (crc16 (coveredBytes c n)) := by
  have htag := tagNumber_dec2 hn
  obtain ⟨hchunk, hframeTag, -⟩ := frame_of_encode c n
  rw [decoded_of_long s (by rw [hb, length_encodeFrame]; omega), decodedLong, hb, decodeFrame_encodeFrame, frameCrc,
    hchunk, hframeTag, dseqOf, htag]
  rfl

/-- The buffer `ENC.RUN` leaves is a function of `BUF` and `SEQ`, executed or refused. -/
theorem encRun_buf (h : exec .encRun s = .next t) :
    t.buf = if s.buf.length ≤ 25 then encodeFrame s.buf s.seq.toNat else s.buf := by
  obtain ⟨c, hr, rfl⟩ | ⟨hr, rfl⟩ := exec_next_cases h
  · rw [if_neg fun hl => by simp [refusedFor_encRun_eq_none.mpr hl] at hr]
    rfl
  · rw [if_pos (refusedFor_encRun_eq_none.mp hr)]
    rfl

/-- Settles O42: the frame's parts by their indices, and what `DEC.RUN` reports of it. -/
theorem encoderOutputValidates : Obligations.EncoderOutputValidates := by
  refine ⟨fun s hl hs => ?_, fun s s' t t' hbuf hseq h h' => ?_⟩
  · have hlen : (encodeFrame s.buf s.seq.toNat).length = s.buf.length + 7 := length_encodeFrame _ _
    have hdec := decoded_of_encoded (s := (encoded s).emit (rspWord 0 (BitVec.ofNat 16 (s.buf.length + 7)))) rfl hs
    obtain ⟨hvalid, htagnum, hshort, -⟩ := statusWord_flags true true false
    have htake : (encodeFrame s.buf s.seq.toNat).take (s.buf.length + 2) = coveredBytes s.buf s.seq.toNat := by
      rw [encodeFrame, ← length_coveredBytes s.buf s.seq.toNat, List.take_left]
    have hdrop : (encodeFrame s.buf s.seq.toNat).drop (s.buf.length + 2) =
        dec5 (crc16 (coveredBytes s.buf s.seq.toNat)) := by
      rw [encodeFrame, ← length_coveredBytes s.buf s.seq.toNat, List.drop_left]
    refine ⟨_, _, exec_encRun_of_le hl, exec_decRun _, hlen, by rw [State.emit_buf, encoded_buf]; omega,
      by rw [State.emit_buf, encoded_buf]; omega, ?_, ?_, tagNumber_dec2 hs, ?_, ?_⟩
    · rw [State.emit_buf, encoded_buf, encodeFrame, coveredBytes, List.append_assoc, List.take_left]
    · rw [State.emit_buf, encoded_buf, encodeFrame, coveredBytes, List.append_assoc, List.drop_left,
        List.take_left' (length_dec2 _)]
    · rw [State.emit_buf, encoded_buf, htake, hdrop]
    · rw [hdec]
      refine ⟨hvalid, htagnum, hshort, ?_, ?_, rfl, rfl⟩
      · exact Nat.mod_eq_of_lt (show s.buf.length < 2 ^ 5 by omega)
      · exact BitVec.ofNat_toNat ..
  · rw [encRun_buf h, encRun_buf h', hbuf, hseq]

/-- Settles O43: the parts of the frame, whose tag spells no number, and the encoder's tag, whose bytes are digits. -/
theorem validWithoutNumericTag : Obligations.ValidWithoutNumericTag := by
  refine ⟨fun s c t0 t1 hc hnot hb => ?_, fun c n hn => ?_⟩
  · obtain ⟨hchunk, htag, hck⟩ := frame_of_parts (pre := c) (t0 := t0) (t1 := t1) (length_dec5 (crc16 (c ++ [t0, t1])))
    rw [← hb] at hchunk htag hck
    have hnone := tagNumber_of_notNumeric hnot
    have hvalid : (decodeFrame s.buf).valid = true := by
      rw [decodeFrame_valid_iff, frameCrc, hchunk, htag, hck]
    have hdec := decoded_of_long s (by rw [hb]; simp)
    rw [decodedLong, hvalid, decodeFrame, htag, hnone, dseqOf_of_none hnone] at hdec
    refine ⟨_, exec_decRun s, ?_, ?_⟩
    · rw [State.emit_status, hdec]
      rfl
    · rw [State.emit_dseq, hdec]
      rfl
  · refine ⟨_, _, (frame_of_encode c n).2.1.trans (dec2_eq n), fun h => ?_⟩
    exact notNumeric_iff.mp h ⟨isDigit_asciiDigit _, isDigit_asciiDigit _⟩

end Sys2Proof.Machine
end

section
/-! SUPPORT, O44, O45 and O50. What the checksum sees of a change to a frame: every flipped bit, but no zero byte in front; and the
three ways to compute it. -/

namespace Sys2Proof.Machine

variable {s t : State} {f g : List Byte} {a k : Nat}

/-! ### The fold loses nothing -/

/-- For a given accumulator a step loses nothing of the byte. -/
theorem crcStep_byte_injective {c : Half} {b b' : Byte} (h : crcStep c b = crcStep c b') : b = b' := by
  have h0 : crcStep 0 (b ^^^ b') = 0 := by
    have hx := crcStep_xor c c b b'
    rwa [h, BitVec.xor_self, BitVec.xor_self] at hx
  have hbyte : (0 : Half) ^^^ ((b ^^^ b').zeroExtend 16 <<< 8) = 0 := crcShifts_eq_zero h0
  rw [← BitVec.xor_eq_zero_iff]
  apply BitVec.eq_of_getLsbD_eq
  intro i hi
  have hbit := congrArg (fun v : Half => v.getLsbD (8 + i)) hbyte
  simpa [hi, show 8 + i < 16 by omega, show i < 16 by omega] using hbit

/-- For given bytes the fold loses nothing of the accumulator. -/
theorem foldl_crcStep_injective {c d : Half} (h : f.foldl crcStep c = f.foldl crcStep d) : c = d := by
  induction f generalizing c d with
  | nil => exact h
  | cons b f ih => exact crcStep_injective (ih h)

/-- Two sequences that differ in one byte have different CRCs. -/
theorem crc16_ne_of_byte_ne {b b' : Byte} (hb : b ≠ b') : crc16 (f ++ b :: g) ≠ crc16 (f ++ b' :: g) := by
  intro h
  rw [crc16_append, crc16_append] at h
  exact hb (crcStep_byte_injective (foldl_crcStep_injective h))

/-! ### One flipped bit (R136) -/

/-- Flipping a bit changes a byte. -/
theorem xor_bit_ne (b : Byte) (hk : k < 8) : b ≠ b ^^^ (1#8 <<< k) := by
  intro h
  have hbit := congrArg (fun v : Byte => v.getLsbD k) h
  simp [hk] at hbit

theorem flipBit_eq (ha : a < f.length) : flipBit f a k = f.take a ++ (f[a] ^^^ (1#8 <<< k)) :: f.drop (a + 1) :=
  List.modify_eq_take_cons_drop ha

theorem flipBit_ne (ha : a < f.length) (hk : k < 8) : flipBit f a k ≠ f := by
  intro h
  rw [flipBit_eq ha] at h
  conv_rhs at h => rw [← List.take_append_drop a f, List.drop_eq_getElem_cons ha]
  exact xor_bit_ne f[a] hk (List.cons.inj (List.append_cancel_left h)).1.symm

theorem crc16_flipBit_ne (ha : a < f.length) (hk : k < 8) : crc16 (flipBit f a k) ≠ crc16 f := by
  have hf : f = f.take a ++ f[a] :: f.drop (a + 1) := by
    rw [← List.drop_eq_getElem_cons ha, List.take_append_drop]
  rw [flipBit_eq ha]
  conv_rhs => rw [hf]
  exact crc16_ne_of_byte_ne (xor_bit_ne f[a] hk).symm

@[simp] theorem length_flipBit (f : List Byte) (a k : Nat) : (flipBit f a k).length = f.length := List.length_modify _ _ _

theorem take_flipBit (f : List Byte) (j : Nat) : (flipBit f a k).take j = flipBit (f.take j) a k :=
  List.take_modify _ _ _ _

theorem flipBit_of_length_le (ha : f.length ≤ a) : flipBit f a k = f := List.modify_eq_self ha

theorem drop_flipBit_of_lt (f : List Byte) {j : Nat} (ha : a < j) : (flipBit f a k).drop j = f.drop j :=
  List.drop_modify_of_lt _ _ _ _ ha

theorem drop_flipBit_of_le (f : List Byte) {j : Nat} (ha : j ≤ a) :
    (flipBit f a k).drop j = flipBit (f.drop j) (a - j) k := List.drop_modify_of_ge _ _ _ _ ha

/-- `VALID` of a frame that is not short: its last five bytes are the digits of the CRC of the others (R63, R131). -/
theorem validFlag_decoded_iff (hl : 7 ≤ s.buf.length) : validFlag (decoded s).status = true ↔
    dec5 (crc16 (s.buf.take (s.buf.length - 5))) = s.buf.drop (s.buf.length - 5) := by
  rw [decoded_of_long s hl, ← frameChunk_append_frameTag hl]
  exact ((statusWord_flags _ _ _).1.congr_left).trans decodeFrame_valid_iff

/-- Settles O44: a bit of the covered bytes changes their CRC but not the digits received, a bit of the checksum only those. -/
theorem singleBitFlipIsDetected : Obligations.SingleBitFlipIsDetected := by
  intro s t a k hlo hhi h hvalid ha hk
  obtain rfl := Host.Outcome.next.inj ((exec_decRun s).symm.trans h)
  have hck := (validFlag_decoded_iff hlo).mp hvalid
  refine ⟨_, exec_decRun _, Bool.eq_false_iff.mpr fun hv => ?_⟩
  have hck' := (validFlag_decoded_iff (s := { s with buf := flipBit s.buf a k }) (by simpa using hlo)).mp hv
  rw [length_flipBit, take_flipBit] at hck'
  obtain hcov | hsum := Nat.lt_or_ge a (s.buf.length - 5)
  · rw [drop_flipBit_of_lt s.buf hcov, ← hck] at hck'
    exact crc16_flipBit_ne (by rw [List.length_take]; omega) hk (dec5_injective hck')
  · rw [drop_flipBit_of_le s.buf hsum, flipBit_of_length_le (by rw [List.length_take]; omega), hck] at hck'
    exact flipBit_ne (by rw [List.length_drop]; omega) hk hck'.symm

/-! ### A zero byte in front (R94 (c)) -/

theorem crc16_zero_cons (f : List Byte) : crc16 (0x00 :: f) = crc16 f := by
  have hzero : crcStep 0 0x00 = 0 := by decide
  rw [crc16_eq_foldl, List.foldl_cons, hzero, crc16_eq_foldl]

/-- The fields are located from the end of the frame, so a byte in front lengthens the chunk alone. -/
theorem fields_cons (b : Byte) (hl : 7 ≤ f.length) : frameChunk (b :: f) = b :: frameChunk f ∧
    frameTag (b :: f) = frameTag f ∧ frameChecksum (b :: f) = frameChecksum f := by
  have h7 : (b :: f).length - 7 = (f.length - 7) + 1 := by
    rw [List.length_cons]
    omega
  have h5 : (b :: f).length - 5 = (f.length - 5) + 1 := by
    rw [List.length_cons]
    omega
  simp only [frameChunk, frameTag, frameChecksum, params_frameMin, params_ckDigits, h7, h5, List.take_succ_cons,
    List.drop_succ_cons, and_self]

theorem frameCrc_zero_cons (hl : 7 ≤ f.length) : frameCrc (0x00 :: f) = frameCrc f := by
  obtain ⟨hchunk, htag, -⟩ := fields_cons 0x00 hl
  rw [frameCrc, hchunk, htag, List.cons_append, crc16_zero_cons, frameCrc]

theorem decodeFrame_zero_cons (hl : 7 ≤ f.length) :
    decodeFrame (0x00 :: f) = { decodeFrame f with chunk := 0x00 :: frameChunk f } := by
  obtain ⟨hchunk, htag, hck⟩ := fields_cons 0x00 hl
  rw [decodeFrame, frameCrc_zero_cons hl, hchunk, htag, hck]
  rfl

/-- Settles O45: the checksum's fold passes over the byte, and the fields but the chunk are where they were. -/
theorem leadingZeroIsInvisible : Obligations.LeadingZeroIsInvisible := by
  refine ⟨crc16_zero_cons, fun s t hlo hhi h => ?_⟩
  obtain rfl := Host.Outcome.next.inj ((exec_decRun s).symm.trans h)
  have hdec := decoded_of_long { s with buf := 0x00 :: s.buf } (show 7 ≤ s.buf.length + 1 by omega)
  rw [decodedLong, decodeFrame_zero_cons hlo, frameCrc_zero_cons hlo] at hdec
  refine ⟨_, exec_decRun _, ?_⟩
  rw [hdec, decoded_of_long s hlo]
  refine ⟨rfl, rfl, rfl, rfl, ?_⟩
  show (BitVec.ofNat 5 (0x00 :: frameChunk s.buf).length).toNat = (BitVec.ofNat 5 (frameChunk s.buf).length).toNat + 1
  rw [List.length_cons, length_frameChunk, BitVec.toNat_ofNat, BitVec.toNat_ofNat]
  omega

/-! ### Three ways to the checksum (R99) -/

/-- `ENCODE` leaves the CRC of the chunk and the tag's digits. -/
theorem afterAll_encode_crc (c : List Byte) (n : Byte) (s : State) (hc : c.length ≤ 25) (hn : n.toNat ≤ 99) :
    (afterAll (expand (.encode c n)) s).crc = crc16 (c ++ dec2 n.toNat) := by
  obtain ⟨r, hr⟩ := afterAll_load s c (by omega)
  have hseq : (BitVec.ofNat 7 (indexOperand n)).toNat = n.toNat := Nat.mod_eq_of_lt (show n.toNat < 2 ^ 7 by omega)
  rw [expand, afterAll_append, hr, afterAll_cons, afterAll_cons, afterAll_nil,
    after_of_none _ (refusedFor_seqSet_eq_none.mpr (by omega)), after_of_none _ (refusedFor_encRun_eq_none.mpr hc)]
  exact congrArg (fun m => crc16 (c ++ dec2 m)) hseq

/-- Settles O50: each way leaves the fold over the same bytes. -/
theorem threeWaysToTheChecksumAgree : Obligations.ThreeWaysToTheChecksumAgree := by
  refine ⟨fun bs s hl => ?_, fun c n s hc hn => ?_⟩
  · obtain ⟨r, hr⟩ := afterAll_crc16 s bs
    obtain ⟨r', hr'⟩ := afterAll_load s bs hl
    refine ⟨_, _, execAll_eq_afterAll s (expand (.crc16 bs)), execAll_eq_afterAll s _, by rw [hr], ?_⟩
    rw [expand, afterAll_append, hr', afterAll_cons, afterAll_nil, after_of_none _ rfl]
    rfl
  · obtain ⟨r, hr⟩ := afterAll_crc16 s (c ++ dec2 n.toNat)
    have hcrc := afterAll_encode_crc c n s hc hn
    exact ⟨_, _, execAll_eq_afterAll s _, execAll_eq_afterAll s _, hcrc, by rw [hr, hcrc]⟩

end Sys2Proof.Machine
end

section
/-! SUPPORT and O51. Cutting a file into chunks: its equation for a file that is not empty, and the induction it gives (R183). -/

namespace Sys2Proof.Machine

variable {file c : List Byte}

/-- Fuel beyond the bytes of the file changes nothing. -/
theorem chunksFrom_fuel {m n : Nat} (hm : file.length ≤ m) (hn : file.length ≤ n) :
    chunksFrom m file = chunksFrom n file := by
  induction m generalizing n file with
  | zero =>
    obtain rfl := List.length_eq_zero_iff.mp (Nat.le_zero.mp hm)
    cases n <;> rfl
  | succ m ih =>
    match file, n, hn with
    | [], 0, _ | [], _ + 1, _ => rfl
    | b :: bs, n + 1, hn =>
      have hdrop : ((b :: bs).drop 25).length ≤ bs.length := by
        rw [List.length_drop, List.length_cons]
        omega
      rw [List.length_cons] at hm hn
      exact congrArg _ (ih (hdrop.trans (by omega)) (hdrop.trans (by omega)))

theorem chunksFrom_eq_chunksOf {fuel : Nat} (h : file.length ≤ fuel) : chunksFrom fuel file = chunksOf file :=
  chunksFrom_fuel h le_rfl

theorem chunksOf_nil : chunksOf [] = [] := rfl

theorem chunksOf_of_ne_nil (h : file ≠ []) : chunksOf file = file.take 25 :: chunksOf (file.drop 25) := by
  obtain ⟨b, bs, rfl⟩ := List.exists_cons_of_ne_nil h
  rw [← chunksFrom_eq_chunksOf (file := (b :: bs).drop 25) (fuel := bs.length) (by simp)]
  rfl

theorem chunksOf_eq_nil_iff : chunksOf file = [] ↔ file = [] := by
  refine ⟨fun h => by_contra fun hne => ?_, fun h => h ▸ chunksOf_nil⟩
  rw [chunksOf_of_ne_nil hne] at h
  cases h

/-- What holds of the empty file, and of a file when it holds of its rest after the first chunk, holds of every file. -/
theorem chunk_induction {P : List Byte → Prop} (nil : P []) (chunk : ∀ file, file ≠ [] → P (file.drop 25) → P file)
    (file : List Byte) : P file := by
  induction hn : file.length using Nat.strong_induction_on generalizing file with
  | _ n ih =>
    by_cases hne : file = []
    · exact hne ▸ nil
    · have hpos := List.length_pos_iff.mpr hne
      exact chunk file hne (ih _ (by rw [List.length_drop]; omega) _ rfl)

theorem flatten_chunksOf (file : List Byte) : (chunksOf file).flatten = file := by
  induction file using chunk_induction with
  | nil => rfl
  | chunk file hne ih => rw [chunksOf_of_ne_nil hne, List.flatten_cons, ih, List.take_append_drop]

theorem length_of_mem_chunksOf (h : c ∈ chunksOf file) : 1 ≤ c.length ∧ c.length ≤ 25 := by
  induction file using chunk_induction with
  | nil => cases h
  | chunk file hne ih =>
    rw [chunksOf_of_ne_nil hne] at h
    obtain rfl | h := List.mem_cons.mp h
    · have hpos := List.length_pos_iff.mpr hne
      rw [List.length_take]
      omega
    · exact ih h

/-- A chunk that is not the last has bytes of the file after it, so it is full. -/
theorem length_of_mem_dropLast_chunksOf (h : c ∈ (chunksOf file).dropLast) : c.length = 25 := by
  induction file using chunk_induction with
  | nil => cases h
  | chunk file hne ih =>
    rw [chunksOf_of_ne_nil hne] at h
    by_cases hrest : file.drop 25 = []
    · rw [hrest] at h
      cases h
    · rw [List.dropLast_cons_of_ne_nil (mt chunksOf_eq_nil_iff.mp hrest)] at h
      obtain rfl | h := List.mem_cons.mp h
      · have hlong := List.length_pos_iff.mpr hrest
        rw [List.length_drop] at hlong
        rw [List.length_take]
        omega
      · exact ih h

/-- Settles O51: each part by induction on the file, chunk by chunk. -/
theorem chunkingKeepsTheFile : Obligations.ChunkingKeepsTheFile :=
  ⟨flatten_chunksOf, fun _ _ => length_of_mem_dropLast_chunksOf,
    fun _ _ h => length_of_mem_chunksOf (List.mem_of_getLast? h), rfl⟩

end Sys2Proof.Machine
end

section
/-! SUPPORT, O52 to O54 and O60. One frame at the receiver (R188), and how the host carries it there (R181). -/

namespace Sys2Proof.Machine

variable {h : HostParams} {r : Receiver} {s : State}

/-! ### The receiver's cases -/

theorem isEndMarker_framed (hp : h.endMarkerPayload = .framed) : isEndMarker h s = (decodedChunk s == h.endMarker) := by
  rw [isEndMarker, hp]

theorem isEndMarker_raw (hp : h.endMarkerPayload = .raw) : isEndMarker h s = (s.buf == h.endMarker) := by
  rw [isEndMarker, hp]

/-- A raw marker has no tag (log entry 17). -/
theorem repeatsTag_of_rawMarker (hp : h.endMarkerPayload = .raw) (hm : isEndMarker h s = true) :
    repeatsTag h r s = false := by
  simp [repeatsTag, hasTag, hp, hm]

/-- A short frame, or one with another tag, repeats none. -/
theorem repeatsTag_of_short_or_new (ht : shortFlag s.status = true ∨ r.lastAcceptedTag ≠ some s.tag) :
    repeatsTag h r s = false :=
  ht.elim (repeatsTag_of_short s h) (repeatsTag_of_new s h)

/-- Settles O54: by the verdict in each case. -/
theorem receiverCasesOfR188 : Obligations.ReceiverCasesOfR188 := by
  refine ⟨fun h r s hr => ⟨fun hp hc ht => ?_, fun hp hb => ?_, fun hm hs ht => receiverStep_duplicate s h hr hm hs ht,
    fun hm ht hv hn => receiverStep_accept s h hr hm ht hv hn, fun hm ht hv =>
      receiverStep_reject s h hr hm (repeatsTag_of_short_or_new ht) hv⟩, fun h r s hr => receiverStep_finalized s h hr,
    fun _ => rfl⟩
  · have hm : isEndMarker h s = true := by rw [isEndMarker_framed hp, hc, beq_self_eq_true]
    exact receiverStep_terminate s h hr hm (repeatsTag_of_short_or_new ht)
  · have hm : isEndMarker h s = true := by rw [isEndMarker_raw hp, hb, beq_self_eq_true]
    exact receiverStep_terminate s h hr hm (repeatsTag_of_rawMarker hp hm)

/-- A valid frame with a new tag is accepted where its tag is numeric or the host accepts any. -/
theorem receiverStep_accept_of_verdict (hr : r.finalized = false) (hm : isEndMarker h s = false)
    (ht : r.lastAcceptedTag ≠ some s.tag) (hv : validFlag s.status = true)
    (hn : tagnumFlag s.status = true ∨ h.nonNumericTagVerdict = .accept) : receiverStep h r s =
      ({ r with transferBuffer := r.transferBuffer ++ [decodedChunk s], lastAcceptedTag := some s.tag }, some ackGood) := by
  have hverdict : newValidVerdict h s = .accept := by
    rw [newValidVerdict]
    split
    · rfl
    · exact hn.resolve_left ‹_›
  simp [receiverStep_listening, hr, receiverVerdict, hm, repeatsTag_of_new s h ht, hv, hverdict, receiverAct]

/-- Settles O52: the first delivery is accepted, and leaves its tag the last accepted one. -/
theorem duplicateFrameAppendedOnce : Obligations.DuplicateFrameAppendedOnce := by
  intro h r s hr hm hs hv hn ht
  exact ⟨_, receiverStep_accept_of_verdict hr hm ht hv hn, rfl, receiverStep_duplicate s h hr hm hs rfl⟩

/-- Settles O53: the frame decodes to the next tag, which modulo 100 is another than the last one. -/
theorem nextChunkIsNoDuplicate : Obligations.NextChunkIsNoDuplicate := by
  intro h r c s t u v hr hs hc hlast ht hv hm
  obtain rfl := Host.Outcome.next.inj ((execAll_eq_afterAll _ _).symm.trans ht)
  obtain rfl := Host.Outcome.next.inj ((execAll_eq_afterAll _ _).symm.trans hv)
  rw [List.cons_append, afterAll_cons] at hm ⊢
  have hnext : (after .seqInc s).seq.toNat = (s.seq.toNat + 1) % 100 := nextTag_toNat s.seq
  rw [(afterAll_loadEncode (after .seqInc s) c hc).1, hnext] at hm ⊢
  obtain ⟨-, hvalid, hnum, -, htag, hchunk⟩ :=
    afterAll_decode_encoded u c ((s.seq.toNat + 1) % 100) hc (by omega)
  have hnew : r.lastAcceptedTag ≠ some (tagWord (dec2 ((s.seq.toNat + 1) % 100))) := by
    rw [hlast]
    intro heq
    have hsame := tagWord_dec2_inj hs (by omega) (Option.some.inj heq)
    omega
  rw [← htag] at hnew
  have hstep := receiverStep_accept _ h hr hm hnew hvalid hnum
  rwa [hchunk] at hstep

/-! ### Carrying a frame (R181) -/

variable {u : State}

/-- The response data of commands that only read. -/
theorem answersTo_of_rsps {is : List Instr} {new : List RspWord} (hr : (afterAll is u).rsps = u.rsps ++ new) :
    answersTo is u = new.map rspData := by
  rw [answersTo, hr, List.drop_left]

theorem lenRead_eq (hl : u.buf.length ≤ 32) : lenRead u = u.buf.length := by
  have hr : (afterAll [.rd 1] u).rsps = u.rsps ++ [rspWord 0 (BitVec.ofNat 16 u.buf.length)] := by
    rw [← responseTo_rd_len hl]
    rfl
  rw [lenRead, answersTo_of_rsps hr, List.map_cons, List.headD_cons, rspData_rspWord, BitVec.toNat_ofNat]
  exact Nat.mod_eq_of_lt (by omega)

theorem readOut_eq (hl : u.buf.length ≤ 32) : readOut u = expand (.dump u.buf.length) := by
  rw [readOut, lenRead_eq hl]

theorem frameRead_eq (hl : u.buf.length ≤ 32) : frameRead u = u.buf := by
  have hr := congrArg State.rsps (afterAll_dump hl)
  rw [frameRead, readOut_eq hl, answersTo_of_rsps hr, List.map_cons, List.tail_cons, List.map_map, List.map_map]
  refine (List.map_congr_left fun b _ => ?_).trans (List.map_id u.buf)
  simp

/-- What `receive` does with a frame at a receiver that listens. -/
theorem receive_listening (hr : r.finalized = false) (f : List Byte) : receive h r u f =
    ((receiverStep h r (afterAll (expand (.decode f)) u)).1, afterAll (expand (.decode f)) u,
      (receiverStep h r (afterAll (expand (.decode f)) u)).2) := if_neg (by simp [hr])

/-- Settles O60: the read-out at one end, the load and decode at the other, and the link between them. -/
theorem hostCarriesFramesByCommands : Obligations.HostCarriesFramesByCommands := by
  refine ⟨fun u hl => ⟨?_, ?_⟩, fun h r u frame hr hf => ?_, fun _ _ _ => linkGives_length, fun f hf =>
    ⟨linkGives_deliver hf, rfl⟩, fun m => ⟨Option.isSome_iff_exists, rfl⟩⟩
  · rw [readOut_eq hl, encode_dump]
  · have hover : handOver u .buffer = (afterAll (expand (.dump u.buf.length)) u, some u.buf) := by
      rw [handOver, frameRead_eq hl, readOut_eq hl]
    rw [afterAll_dump hl] at hover
    exact ⟨_, hover, SameUnit.refl u, rfl, rfl⟩
  · exact ⟨_, _, receive_listening hr frame, afterAll_decode_buf u frame hf, exec_decRun _,
      sameUnit_afterAll_decode frame hf u⟩

end Sys2Proof.Machine
end

section
/-! SUPPORT and O58. What one transition does to the receiver's side of a session, whatever the link does: `FINAL_ACK` goes out
with the transition that finalizes the receiver, and with no other. -/

namespace Sys2Proof.Machine

variable {h : HostParams} {r : Receiver} {u : State} {x : Session}

/-- `FINAL_ACK` is neither acknowledgment of a Data Frame, and both strings fit where they travel (R184, R181). -/
theorem hostParamsWf_iff : hostParamsWf h = true ↔ h.finalAck ≠ h.endMarker ∧ h.finalAck ≠ ackGood ∧ h.finalAck ≠ ackBad ∧
    h.finalAck.length ≤ 32 ∧ h.endMarker.length ≤ endMarkerMax h := by
  simp only [hostParamsWf, Bool.and_eq_true, bne_iff_ne, decide_eq_true_eq, and_assoc]
  exact Iff.rfl

/-- On any verdict the answer is `FINAL_ACK` exactly when the receiver is then finalized. -/
theorem receiverAct_finalAck (hwf : hostParamsWf h = true) (hr : r.finalized = false) (s : State) (v : Verdict) :
    (receiverAct h r s v).2 = h.finalAck ↔ (receiverAct h r s v).1.finalized = true := by
  obtain ⟨-, hgood, hbad, -⟩ := hostParamsWf_iff.mp hwf
  cases v with
  | terminate => exact iff_of_true rfl rfl
  | duplicate => exact iff_of_false hgood.symm (by simp [receiverAct, hr])
  | accept => exact iff_of_false hgood.symm (by simp [receiverAct, hr])
  | reject => exact iff_of_false hbad.symm (by simp [receiverAct, hr])

/-- How often `FINAL_ACK` is to have been transmitted: once by a finalized receiver. -/
def finalAcksDue (r : Receiver) : Nat := if r.finalized = true then 1 else 0

/-- One frame at a receiver adds a `FINAL_ACK` exactly when it finalizes it. -/
theorem finalAcks_receive (hwf : hostParamsWf h = true) (r : Receiver) (u : State) (g : List Byte) :
    finalAcksDue r + (receive h r u g).2.2.toList.count h.finalAck = finalAcksDue (receive h r u g).1 := by
  cases hr : r.finalized with
  | true => simp [receive_finalized u h hr]
  | false =>
    rw [receive_listening hr, receiverStep_listening _ h hr, Option.toList_some, List.count_singleton, finalAcksDue, hr,
      finalAcksDue]
    simp [receiverAct_finalAck hwf hr]

/-- A finalized receiver, its unit and its answers stay (R188). -/
theorem sessionStep_finalized (l : LinkAction × LinkAction) (hr : x.receiver.finalized = true) :
    (sessionStep h l x).receiver = x.receiver ∧ (sessionStep h l x).answered = x.answered ∧
      (sessionStep h l x).receiverUnit = x.receiverUnit := by
  obtain ⟨hrec, hunit, hans⟩ | ⟨g, hrec, hunit, hans⟩ := sessionStep_receiver_cases h l x
  · exact ⟨hrec, hans, hunit⟩
  · rw [receive_finalized _ h hr] at hrec hunit hans
    exact ⟨hrec, hans.trans (List.append_nil _), hunit⟩

theorem sessionRun_finalized (links : List (LinkAction × LinkAction)) (hr : x.receiver.finalized = true) :
    (sessionRun h links x).receiver = x.receiver ∧ (sessionRun h links x).answered = x.answered ∧
      (sessionRun h links x).receiverUnit = x.receiverUnit := by
  refine sessionRun_induction (P := fun y => y.receiver = x.receiver ∧ y.answered = x.answered ∧
    y.receiverUnit = x.receiverUnit) h ⟨rfl, rfl, rfl⟩ fun l _ y ⟨hrec, hans, hunit⟩ => ?_
  obtain ⟨hrec', hans', hunit'⟩ := sessionStep_finalized (h := h) l (hrec ▸ hr)
  exact ⟨hrec'.trans hrec, hans'.trans hans, hunit'.trans hunit⟩

/-- Settles O58: the count that is due holds at the start, and every transition keeps it. -/
theorem finalAckExactlyOnce : Obligations.FinalAckExactlyOnce := by
  refine ⟨fun h file links hwf => ?_, fun h x links hr => sessionRun_finalized links hr⟩
  refine sessionRun_induction (P := fun y => y.answered.count h.finalAck = finalAcksDue y.receiver) h rfl
    fun l _ y hy => ?_
  obtain ⟨hrec, -, hans⟩ | ⟨g, hrec, -, hans⟩ := sessionStep_receiver_cases h l y
  · rw [hrec, hans, hy]
  · rw [hrec, hans, List.count_append, hy, finalAcks_receive hwf]

end Sys2Proof.Machine
end

section
/-! SUPPORT. A transition of a session, said once for each of the sender's states (R185 to R187) over a link that delivers or drops
what the sender sends: on the part of the session that decides what comes next, its view. -/

namespace Sys2Proof.Machine

/-- A session without the two units, but for the tag in the sender's: a frame is laid in its unit before it is read from it, so
nothing else of a unit lasts. -/
structure SessionView where
  sender : Sender
  seq : BitVec 7
  receiver : Receiver
  inbox : Mailbox
  sent : List (List Byte)
  answered : List (List Byte)

def Session.view (x : Session) : SessionView :=
  ⟨x.sender, x.senderUnit.seq, x.receiver, x.inbox, x.sent, x.answered⟩

/-- A session after the sender's own part of a transition. -/
def Session.moved (x : Session) (y : Sender) (v : State) : Session :=
  { x with sender := y, senderUnit := v, inbox := none }

/-- The receiver after the chunk `c` with tag `n` has arrived: the chunk appended, unless its tag is the last accepted one. -/
def Receiver.takes (r : Receiver) (c : List Byte) (n : Nat) : Receiver :=
  if r.lastAcceptedTag = some (tagWord (dec2 n)) then r
  else { r with transferBuffer := r.transferBuffer ++ [c], lastAcceptedTag := some (tagWord (dec2 n)) }

variable {h : HostParams} {x : Session} {r : Receiver} {u : State} {l : LinkAction × LinkAction} {b : LinkAction}
  {c : List Byte} {cs : List (List Byte)} {n : Nat} {q : BitVec 7} {m : Mailbox} {s a : List (List Byte)}

/-! ### The receiver's turn -/

/-- A chunk's frame is taken for the marker exactly where the chunk is one (C4). -/
theorem isEndMarker_decode_iff (hc : c.length ≤ 25) (hn : n ≤ 99) :
    isEndMarker h (afterAll (expand (.decode (encodeFrame c n))) u) = true ↔ chunkIsMarker h c n := by
  obtain ⟨hbuf, -, -, -, -, hchunk⟩ := afterAll_decode_encoded u c n hc hn
  cases hp : h.endMarkerPayload with
  | raw => rw [isEndMarker_raw hp, hbuf, beq_iff_eq, chunkIsMarker, hp]
  | framed => rw [isEndMarker_framed hp, hchunk, beq_iff_eq, chunkIsMarker, hp]

/-- A chunk's frame is acknowledged, new or repeated (R188 (2), (3)). -/
theorem receive_chunk (hc : c.length ≤ 25) (hn : n ≤ 99) (hr : r.finalized = false) (hm : ¬ chunkIsMarker h c n) :
    ∃ v, receive h r u (encodeFrame c n) = (r.takes c n, v, some ackGood) := by
  obtain ⟨-, hvalid, hnum, hshort, htag, hchunk⟩ := afterAll_decode_encoded u c n hc hn
  have hmark := Bool.eq_false_iff.mpr (mt (isEndMarker_decode_iff (h := h) (u := u) hc hn).mp hm)
  refine ⟨afterAll (expand (.decode (encodeFrame c n))) u, ?_⟩
  rw [receive_listening hr, Receiver.takes]
  split
  next hlast => rw [receiverStep_duplicate _ h hr hmark hshort (hlast.trans (congrArg some htag.symm))]
  next hnew =>
    rw [receiverStep_accept _ h hr hmark (by rwa [htag]) hvalid hnum, htag, hchunk]

/-- The marker with a tag that is not the last accepted one terminates (R188 (1)). -/
theorem receive_marker (hwf : hostParamsWf h = true) (hn : n ≤ 99) (hr : r.finalized = false)
    (ht : r.lastAcceptedTag ≠ some (tagWord (dec2 n))) :
    ∃ v, receive h r u (markerFrame h n) = ({ r with finalized := true }, v, some h.finalAck) := by
  obtain ⟨-, -, -, -, hlen⟩ := hostParamsWf_iff.mp hwf
  refine ⟨afterAll (expand (.decode (markerFrame h n))) u, ?_⟩
  rw [receive_listening hr]
  cases hp : h.endMarkerPayload with
  | raw =>
    rw [endMarkerMax, hp] at hlen
    have hmark : isEndMarker h (afterAll (expand (.decode h.endMarker)) u) = true := by
      rw [isEndMarker_raw hp, afterAll_decode_buf u _ hlen, beq_self_eq_true]
    rw [markerFrame, hp, receiverStep_terminate _ h hr hmark (repeatsTag_of_rawMarker hp hmark)]
  | framed =>
    rw [endMarkerMax, hp] at hlen
    have hmarker : chunkIsMarker h h.endMarker n := by
      rw [chunkIsMarker, hp]
    obtain ⟨-, -, -, -, htag, -⟩ := afterAll_decode_encoded u h.endMarker n hlen hn
    rw [markerFrame, hp, receiverStep_terminate _ h hr ((isEndMarker_decode_iff hlen hn).mpr hmarker)
      (repeatsTag_of_new _ h (by rwa [htag]))]

/-- A frame handed over and dropped shows in the sender's record alone. -/
theorem view_send_drop (y : Sender) (v : State) (f : List Byte) : ((x.moved y v).send h (.drop, b) f).view =
    ⟨y, v.seq, x.receiver, none, x.sent ++ [f], x.answered⟩ := rfl

/-- A frame handed over and delivered is the receiver's to answer. -/
theorem view_send_deliver (y : Sender) (v : State) {f : List Byte} {w : State} {ans : Option (List Byte)}
    (hf : f.length ≤ 32) (hw : receive h x.receiver x.receiverUnit f = (r, w, ans)) :
    ((x.moved y v).send h (.deliver, b) f).view =
      ⟨y, v.seq, r, ans.bind (linkGives b), x.sent ++ [f], x.answered ++ ans.toList⟩ := by
  have harrive : ((x.moved y v).send h (.deliver, b) f) =
      ({ x.moved y v with sent := x.sent ++ [f] } : Session).arrive h b f := by
    rw [Session.send, linkGives_deliver hf, listen_some]
    rfl
  rw [harrive, Session.arrive]
  simp only [Session.moved, Session.view, hw]

/-! ### The sender's move -/

/-- Where the sender transmits nothing. -/
theorem view_step_silent {y : Sender} {is : List Instr} (hs : senderStep h x.sender x.inbox = (y, is, .silent)) :
    (sessionStep h l x).view =
      { x.view with sender := y, seq := (afterAll is x.senderUnit).seq, inbox := none } := by
  rw [sessionStep_silent h (by rw [hs])]
  simp [Session.senderMoves, Session.view, Session.handsOver, Session.senderActs, poll, hs, handOver]

/-- Where it transmits a frame. -/
theorem step_transmit {y : Sender} {is : List Instr} {t : Transmission} {f : List Byte}
    (hs : senderStep h x.sender x.inbox = (y, is, t)) (hf : (handOver (afterAll is x.senderUnit) t).2 = some f) :
    ∃ v, sessionStep h l x = (x.moved y v).send h l f ∧ v.seq = (afterAll is x.senderUnit).seq := by
  obtain ⟨rs, hunit⟩ := handOver_unit (afterAll is x.senderUnit) t
  refine ⟨(handOver (afterAll is x.senderUnit) t).1, ?_, by rw [hunit]⟩
  have hov : x.handsOver h = handOver (afterAll is x.senderUnit) t := by
    simp [Session.handsOver, Session.senderActs, poll, hs]
  simp [sessionStep, hov, hf, Session.moved, Session.senderMoves, Session.senderActs, poll, hs]

/-- A chunk framed in the sender's unit is what it hands to the link, and its tag stays (R181, R185). -/
theorem handOver_loadEncode (u : State) (hc : c.length ≤ 25) :
    (handOver (afterAll (loadCommands c ++ [.encRun]) u) .buffer).2 = some (encodeFrame c u.seq.toNat) := by
  have hbuf := (afterAll_loadEncode u c hc).1
  rw [handOver, frameRead_eq (by rw [hbuf, length_encodeFrame]; omega), hbuf]

theorem step_sendingChunk (hx : x.sender = ⟨.sendingChunk, c :: cs⟩) (hc : c.length ≤ 25) :
    ∃ v, sessionStep h l x = (x.moved ⟨.awaitingAck, c :: cs⟩ v).send h l (encodeFrame c x.senderUnit.seq.toNat) ∧
      v.seq = x.senderUnit.seq := by
  obtain ⟨v, hv, hseq⟩ := step_transmit (l := l) (show senderStep h x.sender x.inbox = _ by rw [hx]; rfl)
    (handOver_loadEncode x.senderUnit hc)
  exact ⟨v, hv, hseq.trans (afterAll_loadEncode x.senderUnit c hc).2⟩

theorem step_sendingEnd (hwf : hostParamsWf h = true) (hx : x.sender = ⟨.sendingEnd, cs⟩) :
    ∃ v, sessionStep h l x = (x.moved ⟨.awaitingFinalAck, cs⟩ v).send h l (markerFrame h x.senderUnit.seq.toNat) ∧
      v.seq = x.senderUnit.seq := by
  obtain ⟨-, -, -, -, hlen⟩ := hostParamsWf_iff.mp hwf
  cases hp : h.endMarkerPayload with
  | raw =>
    have hs : senderStep h x.sender x.inbox = (⟨.awaitingFinalAck, cs⟩, [], .raw h.endMarker) := by
      rw [hx, senderStep, endMarkerSend, hp]
    rw [markerFrame, hp]
    exact step_transmit hs rfl
  | framed =>
    rw [endMarkerMax, hp] at hlen
    have hs : senderStep h x.sender x.inbox =
        (⟨.awaitingFinalAck, cs⟩, loadCommands h.endMarker ++ [.encRun], .buffer) := by
      rw [hx, senderStep, endMarkerSend, hp]
    obtain ⟨v, hv, hseq⟩ := step_transmit (l := l) hs (handOver_loadEncode x.senderUnit hlen)
    rw [markerFrame, hp]
    exact ⟨v, hv, hseq.trans (afterAll_loadEncode x.senderUnit h.endMarker hlen).2⟩

theorem length_markerFrame (hwf : hostParamsWf h = true) (n : Nat) : (markerFrame h n).length ≤ 32 := by
  obtain ⟨-, -, -, -, hlen⟩ := hostParamsWf_iff.mp hwf
  cases hp : h.endMarkerPayload with
  | raw =>
    rw [endMarkerMax, hp] at hlen
    rwa [markerFrame, hp]
  | framed =>
    rw [endMarkerMax, hp] at hlen
    have hmax : h.endMarker.length ≤ 25 := hlen
    rw [markerFrame, hp, length_encodeFrame]
    omega

/-! ### One transition for each state of the sender -/

/-- The parts of a session's view, one by one. -/
theorem view_eq_mk_iff {y : Sender} : x.view = ⟨y, q, r, m, s, a⟩ ↔
    x.sender = y ∧ x.senderUnit.seq = q ∧ x.receiver = r ∧ x.inbox = m ∧ x.sent = s ∧ x.answered = a := by
  rw [Session.view, SessionView.mk.injEq]

theorem view_preparing (hx : x.view = ⟨⟨.preparing, cs⟩, q, r, m, s, a⟩) : (sessionStep h l x).view =
    ⟨⟨if cs = [] then .allSent else .sendingChunk, cs⟩, q, r, none, s, a⟩ := by
  obtain ⟨hs, rfl, rfl, -, rfl, rfl⟩ := view_eq_mk_iff.mp hx
  exact view_step_silent (by rw [hs]; rfl)

theorem view_awaitingAck (hx : x.view = ⟨⟨.awaitingAck, cs⟩, q, r, m, s, a⟩) : (sessionStep h l x).view =
    ⟨⟨if m = some ackGood then .advance else .retry, cs⟩, q, r, none, s, a⟩ := by
  obtain ⟨hs, rfl, rfl, rfl, rfl, rfl⟩ := view_eq_mk_iff.mp hx
  exact view_step_silent (by rw [hs]; rfl)

theorem view_advance (hx : x.view = ⟨⟨.advance, cs⟩, q, r, m, s, a⟩) : (sessionStep h l x).view =
    ⟨⟨if cs.tail = [] then .allSent else .sendingChunk, cs.tail⟩, nextTag q, r, none, s, a⟩ := by
  obtain ⟨hs, rfl, rfl, -, rfl, rfl⟩ := view_eq_mk_iff.mp hx
  exact view_step_silent (is := [.seqInc]) (by rw [hs]; rfl)

theorem view_retry (hx : x.view = ⟨⟨.retry, cs⟩, q, r, m, s, a⟩) : (sessionStep h l x).view =
    ⟨⟨.sendingChunk, cs⟩, q, r, none, s, a⟩ := by
  obtain ⟨hs, rfl, rfl, -, rfl, rfl⟩ := view_eq_mk_iff.mp hx
  exact view_step_silent (by rw [hs]; rfl)

theorem view_allSent (hx : x.view = ⟨⟨.allSent, cs⟩, q, r, m, s, a⟩) : (sessionStep h l x).view =
    ⟨⟨.sendingEnd, cs⟩, q, r, none, s, a⟩ := by
  obtain ⟨hs, rfl, rfl, -, rfl, rfl⟩ := view_eq_mk_iff.mp hx
  exact view_step_silent (by rw [hs]; rfl)

theorem view_awaitingFinalAck (hx : x.view = ⟨⟨.awaitingFinalAck, cs⟩, q, r, m, s, a⟩) : (sessionStep h l x).view =
    ⟨⟨if m = some h.finalAck then .done else .sendingEnd, cs⟩, q, r, none, s, a⟩ := by
  obtain ⟨hs, rfl, rfl, rfl, rfl, rfl⟩ := view_eq_mk_iff.mp hx
  exact view_step_silent (by rw [hs]; rfl)

theorem view_done (hx : x.view = ⟨⟨.done, cs⟩, q, r, m, s, a⟩) : (sessionStep h l x).view =
    ⟨⟨.done, cs⟩, q, r, none, s, a⟩ := by
  obtain ⟨hs, rfl, rfl, -, rfl, rfl⟩ := view_eq_mk_iff.mp hx
  exact view_step_silent (by rw [hs]; rfl)

theorem view_sendingChunk_drop (hx : x.view = ⟨⟨.sendingChunk, c :: cs⟩, q, r, m, s, a⟩) (hc : c.length ≤ 25) :
    (sessionStep h (.drop, b) x).view = ⟨⟨.awaitingAck, c :: cs⟩, q, r, none, s ++ [encodeFrame c q.toNat], a⟩ := by
  obtain ⟨hs, rfl, rfl, -, rfl, rfl⟩ := view_eq_mk_iff.mp hx
  obtain ⟨v, hv, hseq⟩ := step_sendingChunk (h := h) (l := (.drop, b)) hs hc
  rw [hv, view_send_drop, hseq]

theorem view_sendingChunk_deliver (hx : x.view = ⟨⟨.sendingChunk, c :: cs⟩, q, r, m, s, a⟩) (hc : c.length ≤ 25)
    (hq : q.toNat ≤ 99) (hr : r.finalized = false) (hm : ¬ chunkIsMarker h c q.toNat) :
    (sessionStep h (.deliver, b) x).view = ⟨⟨.awaitingAck, c :: cs⟩, q, r.takes c q.toNat, linkGives b ackGood,
      s ++ [encodeFrame c q.toNat], a ++ [ackGood]⟩ := by
  obtain ⟨hs, rfl, rfl, -, rfl, rfl⟩ := view_eq_mk_iff.mp hx
  obtain ⟨v, hv, hseq⟩ := step_sendingChunk (h := h) (l := (.deliver, b)) hs hc
  obtain ⟨w, hw⟩ := receive_chunk (u := x.receiverUnit) hc hq hr hm
  rw [hv, view_send_deliver _ _ (by rw [length_encodeFrame]; omega) hw, hseq]
  rfl

theorem view_sendingEnd_drop (hwf : hostParamsWf h = true) (hx : x.view = ⟨⟨.sendingEnd, cs⟩, q, r, m, s, a⟩) :
    (sessionStep h (.drop, b) x).view = ⟨⟨.awaitingFinalAck, cs⟩, q, r, none, s ++ [markerFrame h q.toNat], a⟩ := by
  obtain ⟨hs, rfl, rfl, -, rfl, rfl⟩ := view_eq_mk_iff.mp hx
  obtain ⟨v, hv, hseq⟩ := step_sendingEnd (l := (.drop, b)) hwf hs
  rw [hv, view_send_drop, hseq]

theorem view_sendingEnd_deliver (hwf : hostParamsWf h = true) (hx : x.view = ⟨⟨.sendingEnd, cs⟩, q, r, m, s, a⟩)
    (hq : q.toNat ≤ 99) (hr : r.finalized = false) (ht : r.lastAcceptedTag ≠ some (tagWord (dec2 q.toNat))) :
    (sessionStep h (.deliver, b) x).view = ⟨⟨.awaitingFinalAck, cs⟩, q, { r with finalized := true },
      linkGives b h.finalAck, s ++ [markerFrame h q.toNat], a ++ [h.finalAck]⟩ := by
  obtain ⟨hs, rfl, rfl, -, rfl, rfl⟩ := view_eq_mk_iff.mp hx
  obtain ⟨v, hv, hseq⟩ := step_sendingEnd (l := (.deliver, b)) hwf hs
  obtain ⟨w, hw⟩ := receive_marker (u := x.receiverUnit) hwf hq hr ht
  rw [hv, view_send_deliver _ _ (length_markerFrame hwf _) hw, hseq]
  rfl

theorem view_sendingEnd_finalized (hwf : hostParamsWf h = true) (hx : x.view = ⟨⟨.sendingEnd, cs⟩, q, r, m, s, a⟩)
    (hr : r.finalized = true) : (sessionStep h (.deliver, b) x).view =
      ⟨⟨.awaitingFinalAck, cs⟩, q, r, none, s ++ [markerFrame h q.toNat], a⟩ := by
  obtain ⟨hs, rfl, rfl, -, rfl, rfl⟩ := view_eq_mk_iff.mp hx
  obtain ⟨v, hv, hseq⟩ := step_sendingEnd (l := (.deliver, b)) hwf hs
  rw [hv, view_send_deliver _ _ (length_markerFrame hwf _) (receive_finalized _ h hr _), hseq, Option.toList_none,
    List.append_nil]
  rfl

end Sys2Proof.Machine
end

section
/-! SUPPORT, O55 and O57. The attempts to send one chunk, and to send the marker: each that fails leaves the sender where it
was, and the one that succeeds moves it on once (R186, R187, R193). -/

namespace Sys2Proof.Machine

variable {h : HostParams} {x : Session} {r : Receiver} {l l' : LinkAction × LinkAction} {b : LinkAction} {c : List Byte}
  {cs : List (List Byte)} {n : Nat} {q : BitVec 7} {m : Mailbox} {s a : List (List Byte)}
  {lost : List (LinkAction × LinkAction)}

/-! ### The receiver, over repetitions of one chunk -/

@[simp] theorem takes_finalized (r : Receiver) (c : List Byte) (n : Nat) : (r.takes c n).finalized = r.finalized := by
  unfold Receiver.takes
  split <;> rfl

theorem takes_of_new (ht : r.lastAcceptedTag ≠ some (tagWord (dec2 n))) : r.takes c n =
    { r with transferBuffer := r.transferBuffer ++ [c], lastAcceptedTag := some (tagWord (dec2 n)) } := if_neg ht

theorem takes_of_repeated (ht : r.lastAcceptedTag = some (tagWord (dec2 n))) : r.takes c n = r := if_pos ht

/-- A chunk that arrives again is not appended again (R188 (2)). -/
theorem takes_takes (r : Receiver) (c : List Byte) (n : Nat) : (r.takes c n).takes c n = r.takes c n := by
  apply takes_of_repeated
  by_cases ht : r.lastAcceptedTag = some (tagWord (dec2 n))
  · rwa [takes_of_repeated ht]
  · rw [takes_of_new ht]

/-! ### The wait for an answer -/

/-- A lost answer does not reach the sender's poll. -/
theorem linkGives_ne_of_answerLost {ack : List Byte} (hb : answerLost ack b) : linkGives b ack ≠ some ack := by
  obtain rfl | ⟨g, rfl, hg⟩ := hb
  · exact nofun
  · intro heq
    obtain hnone | hsome := linkGives_alter ack g
    · cases hnone.symm.trans heq
    · exact hg (Option.some.inj (hsome.symm.trans heq))

/-- Without the awaited answer the chunk is to be sent again (R185 `RETRY`). -/
theorem view_wait_fails (hx : x.view = ⟨⟨.awaitingAck, cs⟩, q, r, m, s, a⟩) (hm : m ≠ some ackGood) :
    (sessionRun h [l, l'] x).view = ⟨⟨.sendingChunk, cs⟩, q, r, none, s, a⟩ := by
  have hwait := view_awaitingAck (h := h) (l := l) hx
  rw [if_neg hm] at hwait
  exact view_retry hwait

/-- With it the next chunk, or the marker, is to be sent with the next tag (R185 `ADVANCE`, R186). -/
theorem view_wait_succeeds (hx : x.view = ⟨⟨.awaitingAck, c :: cs⟩, q, r, some ackGood, s, a⟩) :
    (sessionRun h [l, l'] x).view =
      ⟨⟨if cs = [] then .allSent else .sendingChunk, cs⟩, nextTag q, r, none, s, a⟩ := by
  have hwait := view_awaitingAck (h := h) (l := l) hx
  rw [if_pos rfl] at hwait
  exact view_advance hwait

/-! ### The attempts -/

/-- The frame does not arrive, or its answer does not (R193). -/
def attemptFails (l : LinkAction × LinkAction) : Prop := l.1 = .drop ∨ (l.1 = .deliver ∧ answerLost ackGood l.2)

/-- An attempt that fails: the frame was sent once more, and where it arrived it was acknowledged. -/
theorem view_attempt_fails (hx : x.view = ⟨⟨.sendingChunk, c :: cs⟩, q, r, m, s, a⟩) (hc : c.length ≤ 25)
    (hq : q.toNat ≤ 99) (hr : r.finalized = false) (hm : ¬ chunkIsMarker h c q.toNat) (hl : attemptFails l) :
    (sessionRun h (attempt l) x).view =
      ⟨⟨.sendingChunk, c :: cs⟩, q, if l.1 = .deliver then r.takes c q.toNat else r, none,
        s ++ [encodeFrame c q.toNat], a ++ if l.1 = .deliver then [ackGood] else []⟩ := by
  obtain ⟨fwd, back⟩ := l
  obtain rfl | ⟨rfl, hback⟩ : fwd = .drop ∨ (fwd = .deliver ∧ answerLost ackGood back) := hl
  · have hsent := view_sendingChunk_drop (h := h) (b := back) hx hc
    rw [if_neg nofun, if_neg nofun, List.append_nil]
    exact view_wait_fails hsent nofun
  · have hsent := view_sendingChunk_deliver (b := back) hx hc hq hr hm
    rw [if_pos rfl, if_pos rfl]
    exact view_wait_fails hsent (linkGives_ne_of_answerLost hback)

/-- Any number of attempts that fail. -/
theorem view_attempts_fail (hx : x.view = ⟨⟨.sendingChunk, c :: cs⟩, q, r, m, s, a⟩) (hc : c.length ≤ 25)
    (hq : q.toNat ≤ 99) (hr : r.finalized = false) (hm : ¬ chunkIsMarker h c q.toNat)
    (hlost : ∀ l ∈ lost, attemptFails l) :
    ∃ r' m', (sessionRun h (lost.flatMap attempt) x).view = ⟨⟨.sendingChunk, c :: cs⟩, q, r', m',
        s ++ List.replicate lost.length (encodeFrame c q.toNat),
        a ++ List.replicate (lost.filter fun l => l.1 = .deliver).length ackGood⟩ ∧
      r'.finalized = false ∧ r'.takes c q.toNat = r.takes c q.toNat := by
  induction lost generalizing x r m s a with
  | nil => exact ⟨r, m, by simpa using hx, hr, rfl⟩
  | cons l lost ih =>
    have hfirst := view_attempt_fails hx hc hq hr hm (hlost l List.mem_cons_self)
    rw [List.flatMap_cons, sessionRun_append]
    by_cases hl : l.1 = .deliver
    · rw [if_pos hl, if_pos hl] at hfirst
      obtain ⟨r', m', hview, hr', htakes⟩ := ih hfirst (by rwa [takes_finalized]) fun k hk =>
        hlost k (List.mem_cons_of_mem l hk)
      refine ⟨r', m', ?_, hr', htakes.trans (takes_takes r c _)⟩
      simpa [hl, List.replicate_succ] using hview
    · rw [if_neg hl, if_neg hl, List.append_nil] at hfirst
      obtain ⟨r', m', hview, hr', htakes⟩ := ih hfirst hr fun k hk => hlost k (List.mem_cons_of_mem l hk)
      refine ⟨r', m', ?_, hr', htakes⟩
      simpa [hl, List.replicate_succ] using hview

/-- The attempt that succeeds: the sender goes on, with the next tag. -/
theorem view_attempt_succeeds (hx : x.view = ⟨⟨.sendingChunk, c :: cs⟩, q, r, m, s, a⟩) (hc : c.length ≤ 25)
    (hq : q.toNat ≤ 99) (hr : r.finalized = false) (hm : ¬ chunkIsMarker h c q.toNat) :
    (sessionRun h (attempt (.deliver, .deliver)) x).view =
      ⟨⟨if cs = [] then .allSent else .sendingChunk, cs⟩, nextTag q, r.takes c q.toNat, none,
        s ++ [encodeFrame c q.toNat], a ++ [ackGood]⟩ := by
  have hsent := view_sendingChunk_deliver (b := .deliver) hx hc hq hr hm
  exact view_wait_succeeds hsent

/-- Settles O55: however many attempts fail, the receiver has taken the chunk at most once, and with the one that succeeds
exactly once. -/
theorem retryConvergence : Obligations.RetryConvergence := by
  intro h x c cs n lost hx hc hn hle hr ht hm hlost
  subst hn
  have hview : x.view = ⟨⟨.sendingChunk, c :: cs⟩, x.senderUnit.seq, x.receiver, x.inbox, x.sent, x.answered⟩ :=
    view_eq_mk_iff.mpr ⟨hx, rfl, rfl, rfl, rfl, rfl⟩
  obtain ⟨r', m', hfail, hr', htakes⟩ := view_attempts_fail hview hc hle hr hm hlost
  have hdone := view_attempt_succeeds hfail hc hle hr' hm
  rw [htakes, takes_of_new ht] at hdone
  obtain ⟨hsender, hseq, hrec, -, hsent, hans⟩ := view_eq_mk_iff.mp hdone
  refine ⟨_, rfl, ?_⟩
  rw [List.flatMap_append, sessionRun_append, List.flatMap_singleton, hseq, nextTag_toNat]
  refine ⟨hsender, rfl, hrec, ?_, ?_⟩
  · rw [hsent, List.append_assoc, List.replicate_succ']
  · rw [hans, List.append_assoc, List.replicate_succ']

/-! ### The end of the transfer -/

/-- A marker that does not arrive is sent again (R187). -/
theorem view_endAttempt_drop (hwf : hostParamsWf h = true) (hx : x.view = ⟨⟨.sendingEnd, cs⟩, q, r, m, s, a⟩) :
    (sessionRun h (endAttempt (.drop, b)) x).view =
      ⟨⟨.sendingEnd, cs⟩, q, r, none, s ++ [markerFrame h q.toNat], a⟩ := by
  have hsent := view_sendingEnd_drop (b := b) hwf hx
  exact view_awaitingFinalAck hsent

theorem view_endAttempts_drop (hwf : hostParamsWf h = true) (hx : x.view = ⟨⟨.sendingEnd, cs⟩, q, r, m, s, a⟩)
    (hlost : ∀ l ∈ lost, l.1 = .drop) : ∃ m', (sessionRun h (lost.flatMap endAttempt) x).view =
      ⟨⟨.sendingEnd, cs⟩, q, r, m', s ++ List.replicate lost.length (markerFrame h q.toNat), a⟩ := by
  induction lost generalizing x m s with
  | nil => exact ⟨m, by simpa using hx⟩
  | cons l lost ih =>
    obtain ⟨fwd, back⟩ := l
    obtain rfl : fwd = .drop := hlost _ List.mem_cons_self
    have hfirst := view_endAttempt_drop (b := back) hwf hx
    obtain ⟨m', hview⟩ := ih hfirst fun k hk => hlost k (List.mem_cons_of_mem _ hk)
    refine ⟨m', ?_⟩
    rw [List.flatMap_cons, sessionRun_append, hview, List.length_cons, List.replicate_succ, List.append_assoc]
    rfl

/-- The marker that arrives stops the receiver, and its answer the sender (R187, R188 (1)). -/
theorem view_endAttempt_deliver (hwf : hostParamsWf h = true) (hx : x.view = ⟨⟨.sendingEnd, cs⟩, q, r, m, s, a⟩)
    (hq : q.toNat ≤ 99) (hr : r.finalized = false) (ht : r.lastAcceptedTag ≠ some (tagWord (dec2 q.toNat))) :
    (sessionRun h (endAttempt (.deliver, .deliver)) x).view = ⟨⟨.done, cs⟩, q, { r with finalized := true }, none,
      s ++ [markerFrame h q.toNat], a ++ [h.finalAck]⟩ := by
  obtain ⟨-, -, -, hack, -⟩ := hostParamsWf_iff.mp hwf
  have hsent := view_sendingEnd_deliver (b := .deliver) hwf hx hq hr ht
  rw [linkGives_deliver hack] at hsent
  have hdone := view_awaitingFinalAck (h := h) (l := (.deliver, .deliver)) hsent
  rw [if_pos rfl] at hdone
  exact hdone

/-- A sender that is done and a receiver that is finalized stay so, whatever the link does. -/
theorem view_run_done (links : List (LinkAction × LinkAction)) (hx : x.view = ⟨⟨.done, cs⟩, q, r, m, s, a⟩) :
    ∃ m', (sessionRun h links x).view = ⟨⟨.done, cs⟩, q, r, m', s, a⟩ :=
  sessionRun_induction (P := fun y => ∃ m', y.view = ⟨⟨.done, cs⟩, q, r, m', s, a⟩) h ⟨m, hx⟩
    fun _ _ _ ⟨_, hy⟩ => ⟨none, view_done hy⟩

/-- Settles O57: markers lost, one that arrives, and then nothing more. -/
theorem terminationHandshake : Obligations.TerminationHandshake := by
  intro h x n lost hwf hx hn hle hr ht hlost
  subst hn
  have hview : x.view = ⟨⟨.allSent, x.sender.chunks⟩, x.senderUnit.seq, x.receiver, x.inbox, x.sent, x.answered⟩ :=
    view_eq_mk_iff.mpr ⟨by rw [← hx], rfl, rfl, rfl, rfl, rfl⟩
  have hfirst := view_allSent (h := h) (l := (.drop, .drop)) hview
  obtain ⟨m', hfail⟩ := view_endAttempts_drop hwf hfirst hlost
  have hdone := view_endAttempt_deliver hwf hfail hle hr ht
  obtain ⟨hsender, -, hrec, -, hsent, hans⟩ := view_eq_mk_iff.mp hdone
  refine ⟨_, rfl, ?_⟩
  rw [sessionRun_cons, List.flatMap_append, sessionRun_append, List.flatMap_singleton]
  refine ⟨hsender, hrec, ?_, hans, fun links => ⟨_, rfl, ?_⟩⟩
  · rw [hsent, List.append_assoc, List.replicate_succ']
  · obtain ⟨m'', hstay⟩ := view_run_done (h := h) links hdone
    obtain ⟨hsender', -, hrec', -, hsent', hans'⟩ := view_eq_mk_iff.mp hstay
    exact ⟨hsender'.trans hsender.symm, hrec'.trans hrec.symm, hsent'.trans hsent.symm, hans'.trans hans.symm⟩

end Sys2Proof.Machine
end

section
/-! SUPPORT, O56 and O59. A whole transfer from the start (R193): the receiver after so many chunks, the run over a link that
delivers, and what holds at every moment over a link that loses. -/

namespace Sys2Proof.Machine

variable {h : HostParams} {x : Session} {l : LinkAction × LinkAction} {c : List Byte}
  {chunks : List (List Byte)} {i k : Nat} {m : Mailbox} {s a : List (List Byte)}

/-! ### The tag and the receiver after so many chunks -/

/-- The tag of the chunk at index `i` (R186). -/
def tagAt (i : Nat) : BitVec 7 := BitVec.ofNat 7 (i % 100)

@[simp] theorem tagAt_toNat (i : Nat) : (tagAt i).toNat = i % 100 := by
  rw [tagAt, BitVec.toNat_ofNat]
  exact Nat.mod_eq_of_lt (by omega)

theorem nextTag_tagAt (i : Nat) : nextTag (tagAt i) = tagAt (i + 1) := by
  apply BitVec.eq_of_toNat_eq
  rw [nextTag_toNat, tagAt_toNat, tagAt_toNat]
  omega

/-- A receiver that has accepted the first `k` chunks and nothing else. -/
def receiverAt (chunks : List (List Byte)) (k : Nat) : Receiver :=
  ⟨if k = 0 then none else some (tagWord (dec2 ((k - 1) % 100))), chunks.take k, false⟩

/-- The next tag is not that of the last accepted chunk, across the wrap too (R192). -/
theorem receiverAt_tag_ne (chunks : List (List Byte)) (k : Nat) :
    (receiverAt chunks k).lastAcceptedTag ≠ some (tagWord (dec2 (k % 100))) := by
  unfold receiverAt
  split
  · exact nofun
  · intro heq
    have hsame := tagWord_dec2_inj (show (k - 1) % 100 ≤ 99 by omega) (by omega) (Option.some.inj heq)
    omega

/-- A receiver that lacks the chunk takes it. -/
theorem receiverAt_takes (hc : chunks[i]? = some c) :
    (receiverAt chunks i).takes c (i % 100) = receiverAt chunks (i + 1) := by
  rw [takes_of_new (receiverAt_tag_ne chunks i), receiverAt, receiverAt, List.take_add_one, hc, if_neg (Nat.succ_ne_zero i)]
  rfl

/-- One that has it already does not take it again. -/
theorem receiverAt_succ_takes : (receiverAt chunks (i + 1)).takes c (i % 100) = receiverAt chunks (i + 1) :=
  takes_of_repeated rfl

/-! ### The start -/

theorem chunksOfInput_eq (file : Option (List Byte)) : chunksOfInput file = chunksOf (file.getD []) := by
  cases file <;> rfl

theorem view_start (file : Option (List Byte)) (hchunks : chunks = chunksOf (file.getD [])) :
    (Session.start file).view = ⟨⟨.preparing, chunks⟩, tagAt 0, receiverAt chunks 0, none, [], []⟩ := by
  rw [hchunks, ← chunksOfInput_eq]
  rfl

/-- What the transfer asks of the file's chunks: each fits, and none is the end marker (C4). -/
structure ChunksFit (h : HostParams) (chunks : List (List Byte)) : Prop where
  len : ∀ {i : Nat} {c : List Byte}, chunks[i]? = some c → c.length ≤ 25
  notMarker : ∀ {i : Nat} {c : List Byte}, chunks[i]? = some c → ¬ chunkIsMarker h c (i % 100)

theorem chunksFit_chunksOf {file : List Byte}
    (hm : ∀ i c, (chunksOf file)[i]? = some c → ¬ chunkIsMarker h c (i % 100)) : ChunksFit h (chunksOf file) :=
  ⟨fun hc => (length_of_mem_chunksOf (List.mem_of_getElem? hc)).2, fun hc => hm _ _ hc⟩

/-! ### Over a link that delivers -/

/-- After three transitions per chunk, the first `i` chunks are transmitted, acknowledged and in the Transfer Buffer. -/
theorem view_after_chunks (hfit : ChunksFit h chunks) (hx : x.view =
      ⟨⟨if chunks = [] then .allSent else .sendingChunk, chunks⟩, tagAt 0, receiverAt chunks 0, none, [], []⟩)
    (hi : i ≤ chunks.length) : (sessionRun h (List.replicate (3 * i) (.deliver, .deliver)) x).view =
      ⟨⟨if chunks.drop i = [] then .allSent else .sendingChunk, chunks.drop i⟩, tagAt i, receiverAt chunks i, none,
        (chunks.take i).mapIdx fun j c => encodeFrame c (j % 100), List.replicate i ackGood⟩ := by
  induction i with
  | zero => exact hx
  | succ i ih =>
    have hlt : i < chunks.length := hi
    have hc : chunks[i]? = some chunks[i] := List.getElem?_eq_getElem hlt
    have hview := ih (Nat.le_of_lt hlt)
    rw [List.drop_eq_getElem_cons hlt, if_neg (List.cons_ne_nil _ _)] at hview
    have hnext := view_attempt_succeeds hview (hfit.len hc) (by rw [tagAt_toNat]; omega) rfl
      (by rw [tagAt_toNat]; exact hfit.notMarker hc)
    rw [tagAt_toNat, receiverAt_takes hc, nextTag_tagAt, ← sessionRun_append] at hnext
    rw [Nat.mul_succ, List.replicate_add, List.take_add_one, hc, Option.toList_some, List.mapIdx_concat, List.length_take,
      Nat.min_eq_left (Nat.le_of_lt hlt), List.replicate_succ' (n := i)]
    exact hnext

/-- The transitions of a transfer: the first, three per chunk, and three for the marker. -/
theorem replicate_transfer (n : Nat) (l : LinkAction × LinkAction) : List.replicate (3 * n + 4) l =
    l :: (List.replicate (3 * n) l ++ l :: endAttempt l) := by
  rw [show 3 * n + 4 = 3 * n + 3 + 1 from rfl, List.replicate_succ, List.replicate_add]
  rfl

/-- A file of 60 bytes in three chunks. -/
theorem chunksOf_sixty {file : List Byte} (hl : file.length = 60) :
    chunksOf file = [file.take 25, (file.drop 25).take 25, (file.drop 50).take 25] := by
  have hne (n : Nat) (hn : n < 60) : file.drop n ≠ [] := by
    rw [← List.length_pos_iff, List.length_drop]
    omega
  have hend : (file.drop 50).drop 25 = [] := by
    rw [List.drop_drop]
    exact List.drop_eq_nil_of_le (by omega)
  rw [chunksOf_of_ne_nil (by simpa using hne 0 (by omega)), chunksOf_of_ne_nil (hne 25 (by omega)), List.drop_drop,
    chunksOf_of_ne_nil (hne 50 (by omega)), hend, chunksOf_nil]

/-- Settles O56: the run is the start, an attempt that succeeds per chunk, and the marker's. -/
theorem endToEndReconstructsFile : Obligations.EndToEndReconstructsFile := by
  refine ⟨fun h file chunks hwf hchunks hm => ⟨_, rfl, ?_⟩, fun file hl => ⟨?_, ?_⟩⟩
  · have hfit : ChunksFit h chunks := hchunks ▸ chunksFit_chunksOf (hchunks ▸ hm)
    have hfirst := view_preparing (h := h) (l := (.deliver, .deliver)) (view_start file hchunks)
    have hall := view_after_chunks hfit hfirst le_rfl
    rw [List.drop_length, if_pos rfl, List.take_length] at hall
    have hend := view_allSent (h := h) (l := (.deliver, .deliver)) hall
    have hdone := view_endAttempt_deliver hwf hend (by rw [tagAt_toNat]; omega) rfl
      (by rw [tagAt_toNat]; exact receiverAt_tag_ne chunks chunks.length)
    obtain ⟨hsender, -, hrec, -, hsent, hans⟩ := view_eq_mk_iff.mp hdone
    have hbuf : (receiverAt chunks chunks.length).transferBuffer = chunks := List.take_length
    rw [replicate_transfer, sessionRun_cons, sessionRun_append, sessionRun_cons]
    refine ⟨hsender, by rw [hrec], by rw [hrec, hbuf], ?_, ?_, hans⟩
    · rw [hrec, Receiver.output, if_pos rfl, hbuf, hchunks, flatten_chunksOf]
    · rw [hsent, tagAt_toNat]
  · rw [chunksOf_sixty hl]
    simp [hl]
  · simp only [(frame_of_encode _ _).2.1, chunksOf_sixty hl, List.mapIdx_cons, List.mapIdx_nil]
    decide

/-! ### Over a link that loses -/

/-- What a transfer has reached when frames are lost and answers are lost or altered, for each state of the sender: `i`
chunks are acknowledged and the receiver has `k` of them, one more where the acknowledgment is still to come. -/
inductive TransferReaches (chunks : List (List Byte)) : SessionView → Prop
  | preparing {m : Mailbox} {s a : List (List Byte)} :
    TransferReaches chunks ⟨⟨.preparing, chunks⟩, tagAt 0, receiverAt chunks 0, m, s, a⟩
  | sendingChunk {i k : Nat} {m : Mailbox} {s a : List (List Byte)} (hi : i < chunks.length) (hk : k = i ∨ k = i + 1) :
    TransferReaches chunks ⟨⟨.sendingChunk, chunks.drop i⟩, tagAt i, receiverAt chunks k, m, s, a⟩
  | awaitingAck {i k : Nat} {m : Mailbox} {s a : List (List Byte)} (hi : i < chunks.length) (hk : k = i ∨ k = i + 1)
    (hm : m ≠ none → k = i + 1) :
    TransferReaches chunks ⟨⟨.awaitingAck, chunks.drop i⟩, tagAt i, receiverAt chunks k, m, s, a⟩
  | advance {i : Nat} {m : Mailbox} {s a : List (List Byte)} (hi : i < chunks.length) :
    TransferReaches chunks ⟨⟨.advance, chunks.drop i⟩, tagAt i, receiverAt chunks (i + 1), m, s, a⟩
  | retry {i k : Nat} {m : Mailbox} {s a : List (List Byte)} (hi : i < chunks.length) (hk : k = i ∨ k = i + 1) :
    TransferReaches chunks ⟨⟨.retry, chunks.drop i⟩, tagAt i, receiverAt chunks k, m, s, a⟩
  | allSent {m : Mailbox} {s a : List (List Byte)} :
    TransferReaches chunks ⟨⟨.allSent, []⟩, tagAt chunks.length, receiverAt chunks chunks.length, m, s, a⟩
  | sendingEnd {f : Bool} {m : Mailbox} {s a : List (List Byte)} : TransferReaches chunks
    ⟨⟨.sendingEnd, []⟩, tagAt chunks.length, { receiverAt chunks chunks.length with finalized := f }, m, s, a⟩
  | awaitingFinalAck {f : Bool} {m : Mailbox} {s a : List (List Byte)} (hm : m ≠ none → f = true) :
    TransferReaches chunks
      ⟨⟨.awaitingFinalAck, []⟩, tagAt chunks.length, { receiverAt chunks chunks.length with finalized := f }, m, s, a⟩
  | done {m : Mailbox} {s a : List (List Byte)} : TransferReaches chunks
    ⟨⟨.done, []⟩, tagAt chunks.length, { receiverAt chunks chunks.length with finalized := true }, m, s, a⟩

/-- Where both ends have `i` chunks the sender goes on with the next, or with the marker. -/
theorem TransferReaches.next (hi : i ≤ chunks.length) : TransferReaches chunks
    ⟨⟨if chunks.drop i = [] then .allSent else .sendingChunk, chunks.drop i⟩, tagAt i, receiverAt chunks i, m, s, a⟩ := by
  by_cases hlt : i < chunks.length
  · rw [if_neg (by rw [List.drop_eq_getElem_cons hlt]; exact List.cons_ne_nil _ _)]
    exact .sendingChunk hlt (.inl rfl)
  · obtain rfl : i = chunks.length := by omega
    rw [List.drop_length, if_pos rfl]
    exact .allSent

/-- A receiver that has the chunk at index `i` or is to get it next has it after its frame. -/
theorem receiverAt_takes_of_or (hc : chunks[i]? = some c) (hk : k = i ∨ k = i + 1) :
    (receiverAt chunks k).takes c (i % 100) = receiverAt chunks (i + 1) := by
  obtain rfl | rfl := hk
  · exact receiverAt_takes hc
  · exact receiverAt_succ_takes

theorem TransferReaches.step (hwf : hostParamsWf h = true) (hfit : ChunksFit h chunks)
    (hl : l.1 = .deliver ∨ l.1 = .drop) (hx : TransferReaches chunks x.view) :
    TransferReaches chunks (sessionStep h l x).view := by
  generalize hv : x.view = v at hx
  obtain ⟨fwd, back⟩ := l
  cases hx with
  | preparing =>
    rw [view_preparing hv]
    exact .next (Nat.zero_le _)
  | @sendingChunk i k _ _ _ hi hk =>
    have hc : chunks[i]? = some chunks[i] := List.getElem?_eq_getElem hi
    rw [List.drop_eq_getElem_cons hi] at hv
    obtain rfl | rfl : fwd = .deliver ∨ fwd = .drop := hl
    · rw [view_sendingChunk_deliver hv (hfit.len hc) (by rw [tagAt_toNat]; omega) rfl
        (by rw [tagAt_toNat]; exact hfit.notMarker hc), tagAt_toNat, receiverAt_takes_of_or hc hk,
        ← List.drop_eq_getElem_cons hi]
      exact .awaitingAck hi (.inr rfl) fun _ => rfl
    · rw [view_sendingChunk_drop hv (hfit.len hc), ← List.drop_eq_getElem_cons hi]
      exact .awaitingAck hi hk fun hne => absurd rfl hne
  | awaitingAck hi hk hm =>
    rw [view_awaitingAck hv]
    split
    next hack =>
      obtain rfl := hm (by rw [hack]; exact nofun)
      exact .advance hi
    next => exact .retry hi hk
  | advance hi =>
    rw [view_advance hv, List.tail_drop, nextTag_tagAt]
    exact .next hi
  | retry hi hk =>
    rw [view_retry hv]
    exact .sendingChunk hi hk
  | allSent =>
    rw [view_allSent hv]
    exact .sendingEnd
  | @sendingEnd f =>
    obtain rfl | rfl : fwd = .deliver ∨ fwd = .drop := hl
    · cases f with
      | false =>
        rw [view_sendingEnd_deliver hwf hv (by rw [tagAt_toNat]; omega) rfl
          (by rw [tagAt_toNat]; exact receiverAt_tag_ne chunks chunks.length)]
        exact .awaitingFinalAck fun _ => rfl
      | true =>
        rw [view_sendingEnd_finalized hwf hv rfl]
        exact .awaitingFinalAck fun _ => rfl
    · rw [view_sendingEnd_drop hwf hv]
      exact .awaitingFinalAck fun hne => absurd rfl hne
  | awaitingFinalAck hm =>
    rw [view_awaitingFinalAck hv]
    split
    next hack =>
      obtain rfl := hm (by rw [hack]; exact nofun)
      exact .done
    next => exact .sendingEnd
  | done =>
    rw [view_done hv]
    exact .done

/-- What R193 and R190 ask of the receiver at every moment. -/
theorem TransferReaches.outcome {v : SessionView} (hv : TransferReaches chunks v) :
    v.receiver.transferBuffer <+: chunks ∧ (v.receiver.finalized = true → v.receiver.transferBuffer = chunks) ∧
      (v.sender.phase = .done → v.receiver.finalized = true) := by
  cases hv with
  | preparing | sendingChunk | awaitingAck | advance | retry | allSent => exact ⟨List.take_prefix _ _, nofun, nofun⟩
  | sendingEnd | awaitingFinalAck => exact ⟨List.take_prefix _ _, fun _ => List.take_length, nofun⟩
  | done => exact ⟨List.take_prefix _ _, fun _ => List.take_length, fun _ => rfl⟩

/-- Settles O59: what the transfer has reached holds at the start and is kept by every transition. -/
theorem lossyTransferKeepsTheFile : Obligations.LossyTransferKeepsTheFile := by
  intro h file chunks links hwf hchunks hm hlinks
  have hfit : ChunksFit h chunks := hchunks ▸ chunksFit_chunksOf (hchunks ▸ hm)
  have hreach : TransferReaches chunks (sessionRun h links (Session.start file)).view := by
    refine sessionRun_induction (P := fun y => TransferReaches chunks y.view) h ?_ fun l hl y hy =>
      hy.step hwf hfit (hlinks l hl)
    rw [view_start file hchunks]
    exact .preparing
  obtain ⟨hprefix, hwhole, hdone⟩ := hreach.outcome
  refine ⟨_, rfl, hprefix, fun hf => ⟨hwhole hf, ?_⟩, fun hf => ?_, hdone⟩
  · have hbuf : (sessionRun h links (Session.start file)).receiver.transferBuffer = chunks := hwhole hf
    rw [Receiver.output, if_pos hf, hbuf, hchunks, flatten_chunksOf]
  · rw [Receiver.output, if_neg (by rw [hf]; exact nofun)]

end Sys2Proof.Machine
end

section
/-! SUPPORT and O5. The assembler line (R76): a mnemonic, a blank and an operand are read apart, and an operand's digits spell
its byte. -/

namespace Sys2Proof.Machine

variable {m w rest t : List Char} {a : AsmOperand} {i : Instr} {n : Nat}

/-! ### Words -/

/-- The text after a word: nothing, or a blank first. -/
def startsBlank (cs : List Char) : Prop := cs = [] ∨ ∃ t, cs = ' ' :: t

theorem inWord_blank : inWord ' ' = false := by decide

/-- A word is read up to the first blank. -/
theorem word_split (hw : ∀ c ∈ w, inWord c = true) (hrest : startsBlank rest) :
    (w ++ rest).takeWhile inWord = w ∧ (w ++ rest).dropWhile inWord = rest := by
  rw [List.takeWhile_append_of_pos hw, List.dropWhile_append_of_pos hw]
  obtain rfl | ⟨t, rfl⟩ := hrest
  · exact ⟨List.append_nil w, rfl⟩
  · rw [List.takeWhile_cons_of_neg (by rw [inWord_blank]; exact nofun),
      List.dropWhile_cons_of_neg (by rw [inWord_blank]; exact nofun)]
    exact ⟨List.append_nil w, rfl⟩

/-- A word's first character is neither a blank nor the start of a comment. -/
theorem skipBlanks_word {c : Char} (hc : inWord c = true) (cs : List Char) : skipBlanks (c :: cs) = c :: cs := by
  have hb : isBlank c = false := by
    simp only [inWord, Bool.and_eq_true, Bool.not_eq_true'] at hc
    exact hc.1
  rw [skipBlanks, List.dropWhile_cons_of_neg (by rw [hb]; exact nofun)]

theorem lineEnds_word {c : Char} (hc : inWord c = true) (cs : List Char) : lineEnds (c :: cs) = false := by
  have hs : (c != ';') = true := by
    simp only [inWord, Bool.and_eq_true] at hc
    exact hc.2
  rw [lineEnds, skipBlanks_word hc]
  simpa using hs

/-- A line of a mnemonic and an operand is the command the two name. -/
theorem assembleLine_of_parts (hne : m ≠ []) (hm : ∀ c ∈ m, inWord c = true) (hrest : startsBlank rest)
    (hop : operandText rest = some (a, t)) (hi : commandNamed m a = some i) (hend : lineEnds t = true) :
    assembleLine (m ++ rest) = .command i := by
  obtain ⟨c, w, rfl⟩ := List.exists_cons_of_ne_nil hne
  obtain ⟨htake, hdrop⟩ := word_split hm hrest
  have hc := hm c List.mem_cons_self
  rw [List.cons_append] at htake hdrop ⊢
  rw [assembleLine, lineEnds_word hc, skipBlanks_word hc, hdrop, hop, htake]
  simp only [hi, hend]
  rfl

/-! ### Numbers -/

/-- A word that is a number is a numeric operand. -/
theorem operandText_number {c : Char} (hw : ∀ d ∈ c :: w, inWord d = true) (hq : c ≠ '\'')
    (hn : numberOf (c :: w) = some n) : operandText (' ' :: c :: w) = some (.number n, []) := by
  have hc := hw c List.mem_cons_self
  obtain ⟨htake, hdrop⟩ := word_split (rest := []) hw (.inl rfl)
  rw [List.append_nil] at htake hdrop
  have hskip : skipBlanks (' ' :: c :: w) = c :: w := skipBlanks_word hc w
  unfold operandText
  rw [hskip]
  split
  · simp_all
  · simp_all [inWord]
  · simp_all
  · simp only [htake, hdrop, hn]

theorem charDigit_hexChar (hn : n < 16) : charDigit 16 (hexChar n) = some n ∧ inWord (hexChar n) = true := by
  have key : ∀ k : Fin 16, charDigit 16 (hexChar k) = some k.val ∧ inWord (hexChar k) = true := by decide
  exact key ⟨n, hn⟩

/-- What a decimal digit is not: a blank, a quote, or the letter of another base. -/
theorem charDigit_digitChar (d : Nat) : charDigit 10 (digitChar d) = some (d % 10) ∧ inWord (digitChar d) = true ∧
    digitChar d ≠ '\'' ∧ digitChar d ≠ 'x' ∧ digitChar d ≠ 'b' := by
  have key : ∀ k : Fin 10, charDigit 10 (digitChar k) = some k.val ∧ inWord (digitChar k) = true ∧
    digitChar k ≠ '\'' ∧ digitChar k ≠ 'x' ∧ digitChar k ≠ 'b' := by decide
  have hd : digitChar (d % 10) = digitChar d := by rw [digitChar, Nat.mod_mod, digitChar]
  simpa only [hd] using key ⟨d % 10, Nat.mod_lt d (by omega)⟩

/-- Digits with no letter after the first are a decimal number. -/
theorem numberOf_decimal {c d : Char} (cs : List Char) (hx : d ≠ 'x') (hb : d ≠ 'b') :
    numberOf (c :: d :: cs) = digitsFrom 10 0 (c :: d :: cs) := by
  unfold numberOf
  split <;> simp_all

/-- An operand in hexadecimal, as R13 writes it. -/
theorem operandText_hex (b : Byte) :
    operandText [' ', '0', 'x', hexChar (b.toNat / 16), hexChar (b.toNat % 16)] = some (.number b.toNat, []) := by
  have hb := b.isLt
  obtain ⟨hhi, hhiw⟩ := charDigit_hexChar (n := b.toNat / 16) (by omega)
  obtain ⟨hlo, hlow⟩ := charDigit_hexChar (n := b.toNat % 16) (by omega)
  refine operandText_number ?_ (by decide) ?_
  · simp only [List.forall_mem_cons, hhiw, hlow, List.not_mem_nil, false_imp_iff, implies_true, and_true]
    decide
  · have hval : (0 * 16 + b.toNat / 16) * 16 + b.toNat % 16 = b.toNat := by omega
    show digitsFrom 16 0 [hexChar (b.toNat / 16), hexChar (b.toNat % 16)] = some b.toNat
    simp only [digitsFrom, hhi, hlo, hval]

/-- An operand in three decimal digits. -/
theorem operandText_decimal (b : Byte) : operandText (' ' :: byteDecimal b) = some (.number b.toNat, []) := by
  have hb := b.isLt
  obtain ⟨h2, hw2, hq2, -, -⟩ := charDigit_digitChar (b.toNat / 100)
  obtain ⟨h1, hw1, -, hx1, hb1⟩ := charDigit_digitChar (b.toNat / 10)
  obtain ⟨h0, hw0, -, -, -⟩ := charDigit_digitChar b.toNat
  refine operandText_number ?_ hq2 ?_
  · simp only [List.forall_mem_cons, hw2, hw1, hw0, List.not_mem_nil, false_imp_iff, implies_true, and_true]
  · have hval : ((0 * 10 + b.toNat / 100 % 10) * 10 + b.toNat / 10 % 10) * 10 + b.toNat % 10 = b.toNat := by omega
    rw [numberOf_decimal _ hx1 hb1]
    simp only [digitsFrom, h2, h1, h0, hval]

theorem byteNumber_toNat (b : Byte) : byteNumber b.toNat = some b := by
  rw [byteNumber, if_pos b.isLt, BitVec.ofNat_toNat, BitVec.setWidth_eq]

/-! ### Commands -/

/-- The mnemonic of a command as a string (R70). -/
def mnemonicOf : Instr → String
  | .rd _ => "RD"
  | .bufClr => "BUF.CLR"
  | .bufPush _ => "BUF.PUSH"
  | .bufRd _ => "BUF.RD"
  | .crcClr => "CRC.CLR"
  | .crcUpd _ => "CRC.UPD"
  | .crcBuf => "CRC.BUF"
  | .crcDig _ => "CRC.DIG"
  | .seqSet _ => "SEQ.SET"
  | .seqInc => "SEQ.INC"
  | .encRun => "ENC.RUN"
  | .decRun => "DEC.RUN"

theorem mnemonicText_eq (i : Instr) : mnemonicText i = (mnemonicOf i).toList := by
  cases i <;> rfl

/-- The operand a command is written with: its byte as a number, none for format N. -/
def operandForm (i : Instr) : AsmOperand :=
  match formatOf i with
  | .N => .absent
  | _ => .number (operandOf i).toNat

theorem mnemonicOf_ne_nil (i : Instr) : (mnemonicOf i).toList ≠ [] := by
  cases i <;> simp [mnemonicOf]

/-- The mnemonics are words. -/
theorem mnemonicOf_inWord (i : Instr) : ∀ c ∈ (mnemonicOf i).toList, inWord c = true := by
  cases i <;> simp [mnemonicOf, inWord, isBlank]

/-- A command's mnemonic and operand name it. -/
theorem commandNamed_mnemonicOf (i : Instr) : commandNamed (mnemonicOf i).toList (operandForm i) = some i := by
  cases i with
  | rd r => simp [mnemonicOf, operandForm, formatOf, operandOf, commandNamed, registerText, byteNumber_toNat]
  | bufPush b | crcUpd b =>
    simp [mnemonicOf, operandForm, formatOf, operandOf, commandNamed, byteText, byteNumber_toNat]
  | bufRd k | crcDig k | seqSet k =>
    simp [mnemonicOf, operandForm, formatOf, operandOf, commandNamed, indexText, byteNumber_toNat]
  | bufClr | crcClr | crcBuf | seqInc | encRun | decRun =>
    simp [mnemonicOf, operandForm, formatOf, commandNamed, noText]

/-- A command's mnemonic with the operand it is written with, in any form. -/
theorem assembleLine_mnemonicOf (hrest : startsBlank rest) (hop : operandText rest = some (operandForm i, [])) :
    assembleLine ((mnemonicOf i).toList ++ rest) = .command i :=
  assembleLine_of_parts (mnemonicOf_ne_nil i) (mnemonicOf_inWord i) hrest hop (commandNamed_mnemonicOf i) rfl

/-- A command of format N is its mnemonic alone. -/
theorem assembleLine_formatN (hN : formatOf i = .N) : assembleLine (mnemonicOf i).toList = .command i := by
  have hop : operandText [] = some (operandForm i, []) := by rw [operandForm, hN]; rfl
  simpa using assembleLine_mnemonicOf (.inl rfl) hop

theorem operandForm_number (hN : formatOf i ≠ .N) : operandForm i = .number (operandOf i).toNat := by
  unfold operandForm
  split
  · exact absurd ‹_› hN
  · rfl

/-- A command with its operand in hexadecimal. -/
theorem assembleLine_hexLine (hN : formatOf i ≠ .N) : assembleLine (hexLine (mnemonicOf i) (operandOf i)) = .command i :=
  assembleLine_mnemonicOf (.inr ⟨_, rfl⟩) ((operandForm_number hN).symm ▸ operandText_hex (operandOf i))

/-- The line the model writes for a command. -/
theorem assembleLine_asmText (i : Instr) : assembleLine (asmText i) = .command i := by
  unfold asmText
  rw [mnemonicText_eq]
  split
  next hN => exact assembleLine_formatN hN
  next hN =>
    exact assembleLine_mnemonicOf (.inr ⟨_, rfl⟩) ((operandForm_number hN).symm ▸ operandText_decimal (operandOf i))

/-- A quoted ASCII character is its code (R76). -/
theorem byteText_quoted (n : Fin 128) : byteText (.quoted (Char.ofNat n)) = some (BitVec.ofNat 8 n) := by
  revert n
  decide

/-- The two mnemonics of format B. -/
theorem commandNamed_bufPush (a : AsmOperand) : commandNamed "BUF.PUSH".toList a = (byteText a).map .bufPush := by
  simp [commandNamed]

theorem commandNamed_crcUpd (a : AsmOperand) : commandNamed "CRC.UPD".toList a = (byteText a).map .crcUpd := by
  simp [commandNamed]

/-- A mnemonic and a quoted character. -/
theorem assembleLine_quoted (c : Char) (hi : commandNamed (mnemonicOf i).toList (.quoted c) = some i) :
    assembleLine ((mnemonicOf i).toList ++ [' ', '\''] ++ [c, '\'']) = .command i := by
  rw [List.append_assoc]
  exact assembleLine_of_parts (mnemonicOf_ne_nil i) (mnemonicOf_inWord i) (.inr ⟨_, rfl⟩) rfl hi rfl

theorem assembleLine_bufPush_quoted (n : Fin 128) : assembleLine ("BUF.PUSH '".toList ++ [Char.ofNat n, '\'']) =
    .command (.bufPush (BitVec.ofNat 8 n)) := by
  have htext : "BUF.PUSH '".toList = "BUF.PUSH".toList ++ [' ', '\''] := by simp
  rw [htext]
  exact assembleLine_quoted (i := .bufPush _) _ (by rw [mnemonicOf, commandNamed_bufPush, byteText_quoted]; rfl)

theorem assembleLine_crcUpd_quoted (n : Fin 128) : assembleLine ("CRC.UPD '".toList ++ [Char.ofNat n, '\'']) =
    .command (.crcUpd (BitVec.ofNat 8 n)) := by
  have htext : "CRC.UPD '".toList = "CRC.UPD".toList ++ [' ', '\''] := by simp
  rw [htext]
  exact assembleLine_quoted (i := .crcUpd _) _ (by rw [mnemonicOf, commandNamed_crcUpd, byteText_quoted]; rfl)

/-- Settles O5: each line is a mnemonic and an operand in one of the forms above; the closed lines are read by evaluation. -/
theorem assembledTextIsTheCommand : Obligations.AssembledTextIsTheCommand :=
  ⟨fun b => ⟨assembleLine_hexLine (i := .rd b) nofun, assembleLine_hexLine (i := .bufPush b) nofun,
    assembleLine_hexLine (i := .bufRd b) nofun, assembleLine_hexLine (i := .crcUpd b) nofun,
    assembleLine_hexLine (i := .crcDig b) nofun, assembleLine_hexLine (i := .seqSet b) nofun⟩,
    assembleLine_formatN (i := .bufClr) rfl, assembleLine_formatN (i := .crcClr) rfl,
    assembleLine_formatN (i := .crcBuf) rfl, assembleLine_formatN (i := .seqInc) rfl,
    assembleLine_formatN (i := .encRun) rfl, assembleLine_formatN (i := .decRun) rfl,
    by decide +kernel, by decide +kernel, by decide +kernel, by decide +kernel, by decide +kernel, by decide +kernel,
    by decide +kernel, by decide +kernel, fun n _ _ => ⟨assembleLine_bufPush_quoted n, assembleLine_crcUpd_quoted n⟩,
    assembleLine_asmText⟩

end Sys2Proof.Machine
end
